-- ==== Sys2Proof/Word.lean ====
section
/-! DEFINITION. The words of the machine and their plainest arithmetic: bytes, nibbles, addresses, 16-bit words, register indices. -/

namespace Sys2Proof

/-- An 8-bit value: a general register, a timer, a byte of memory, an immediate (R10, R71). -/
abbrev Byte := BitVec 8

/-- "A 4-bit field of an instruction word" (R12, R18). -/
abbrev Nibble := BitVec 4

/-- The 12-bit `addr` field of an instruction word (R71). -/
abbrev Addr := BitVec 12

/-- A 16-bit value: an instruction word, pc, I, a stack entry (R10). -/
abbrev Word := BitVec 16

/-- The index of one of the 16 general registers (R20). -/
abbrev Reg := Fin 16

/-- VF, general register 15, the flag register (R18, R22). -/
def vf : Reg := 15

/-- The register a 4-bit field selects (R73). -/
def regOf (n : Nibble) : Reg := n.toFin

/-- The 4-bit field that selects a register (R73). -/
def regBits (r : Reg) : Nibble := BitVec.ofFin r

/-- The 12-bit address where it meets the 16-bit pc: `zext_16(addr)` (R13, R73). -/
def zext16 (a : Addr) : Word := a.zeroExtend 16

end Sys2Proof
end

