-- ==== Sys2Proof/Config.lean ====
section
/-! DEFINITION. What an implementation fixes: the fixed parameters of R10, and the type of the configurable parameters of R11. The default values of R11 are in Machine/Defaults.lean. -/

namespace Sys2Proof

/-- NUM_V: the number of general registers (R10). -/
abbrev numV : Nat := 16

/-- MEM_SIZE: 4096 bytes, addresses 0x000 to 0xFFF (R10, R50). -/
abbrev memSize : Nat := 0x1000

/-- PROG_BASE: the load address and the initial pc (R10). -/
abbrev progBase : Nat := 0x200

/-- MAX_ROM: the largest program image, in bytes (R10). -/
abbrev maxRom : Nat := 0xE00

/-- FONT_SIZE: 80 bytes, 16 glyphs of 5 bytes (R10). -/
abbrev fontSize : Nat := 80

/-- DISPLAY_W: the columns of the display (R10). -/
abbrev displayW : Nat := 64

/-- DISPLAY_H: the rows of the display (R10). -/
abbrev displayH : Nat := 32

/-- ZERO_DISPATCH: how family 0x0 is dispatched (R11, R75). -/
inductive ZeroDispatch where
  /-- `addr` is compared with the two constants 0x0E0 and 0x0EE (the default). -/
  | compare
  /-- Every word of family 0x0 clears the display, as the source program behaves. -/
  | asBuilt
deriving DecidableEq, Repr

/-- One glyph of the font: 5 bytes (R53). -/
abbrev Glyph := Vector Byte 5

/-- FONT: "16 hexadecimal digit glyphs, 5 bytes each" (R11, R53). -/
abbrev Font := Vector Glyph 16

/-- The configurable parameters of R11 other than STACK_CAP, which is the length of the call stack itself. -/
structure Params where
  /-- ZERO_DISPATCH. -/
  zeroDispatch : ZeroDispatch
  /-- FONT. -/
  font : Font
  /-- TRACE_ENABLE. -/
  traceEnable : Bool
  /-- TIMER_TICK_WIRED. -/
  timerTickWired : Bool
deriving DecidableEq, Repr

/-- All five configurable parameters of R11: what a machine is built with. -/
structure Config where
  /-- STACK_CAP: "any integer >= 1". -/
  stackCap : Nat
  params : Params
deriving DecidableEq, Repr

/-- The values R11 allows: STACK_CAP is at least 1; every other parameter ranges over its whole type. -/
abbrev Config.wf (c : Config) : Prop := 1 ≤ c.stackCap

end Sys2Proof
end

