-- ==== Sys2Proof/Machine/Defaults.lean ====
section
/-! DEFINITION. The default values of the configurable parameters (R11) and the reset contents of memory (R38, R52, R53). -/

namespace Sys2Proof.Machine

/-- Glyphs 0 to 3 of the default font (R53). -/
def fontGlyphs0 : Vector Glyph 4 :=
  #v[#v[0xF0, 0x90, 0x90, 0x90, 0xF0], #v[0x20, 0x60, 0x20, 0x20, 0x70],
     #v[0xF0, 0x10, 0xF0, 0x80, 0xF0], #v[0xF0, 0x10, 0xF0, 0x10, 0xF0]]

/-- Glyphs 4 to 7 of the default font (R53). -/
def fontGlyphs4 : Vector Glyph 4 :=
  #v[#v[0x90, 0x90, 0xF0, 0x10, 0x10], #v[0xF0, 0x80, 0xF0, 0x10, 0xF0],
     #v[0xF0, 0x80, 0xF0, 0x90, 0xF0], #v[0xF0, 0x10, 0x20, 0x40, 0x40]]

/-- Glyphs 8 to B of the default font (R53). -/
def fontGlyphs8 : Vector Glyph 4 :=
  #v[#v[0xF0, 0x90, 0xF0, 0x90, 0xF0], #v[0xF0, 0x90, 0xF0, 0x10, 0xF0],
     #v[0xF0, 0x90, 0xF0, 0x90, 0x90], #v[0xE0, 0x90, 0xE0, 0x90, 0xE0]]

/-- Glyphs C to F of the default font (R53). -/
def fontGlyphsC : Vector Glyph 4 :=
  #v[#v[0xF0, 0x80, 0x80, 0x80, 0xF0], #v[0xE0, 0x90, 0x90, 0x90, 0xE0],
     #v[0xF0, 0x80, 0xF0, 0x80, 0xF0], #v[0xF0, 0x80, 0xF0, 0x80, 0x80]]

/-- The default FONT (R53). PRESUMED: the spec takes the bytes from general knowledge (log 2). -/
def defaultFont : Font := fontGlyphs0 ++ fontGlyphs4 ++ fontGlyphs8 ++ fontGlyphsC

/-- The default values of R11: STACK_CAP 256, ZERO_DISPATCH `compare`, the font of R53, TRACE_ENABLE true,
TIMER_TICK_WIRED false (log 2). -/
def defaultConfig : Config :=
  { stackCap := 256
    params :=
      { zeroDispatch := .compare
        font := defaultFont
        traceEnable := true
        timerTickWired := false } }

/-- The byte the reset sequence leaves at an address (R38, R52): glyph g of the font at 5g to 5g+4, and zero from
0x050 upward. -/
def resetByte (f : Font) (a : Nat) : Byte :=
  if h : a < fontSize then
    (f[a / 5]'(Nat.div_lt_of_lt_mul h))[a % 5]'(Nat.mod_lt a (by decide))
  else 0

end Sys2Proof.Machine
end

