-- ==== Sys2Proof/Syntax.lean ====
section
/-! DEFINITION. The instructions: one constructor per row of spec/opcode_table.json, each with every field the row gives it. -/

namespace Sys2Proof

/-- The instructions of R78, and the `as_built` row of CLS. A field an instruction ignores is kept, so that an
instruction determines its word (log 17). -/
inductive Instr where
  /-- 00E0, CLS: clear the display (R100), under `compare`. -/
  | cls
  /-- 00EE, RET: return from subroutine (R101). -/
  | ret
  /-- 0nnn otherwise, SYS addr: a no-op (R102). -/
  | sys (addr : Addr)
  /-- 0nnn, CLS under `as_built`: every word of family 0x0 clears the display (R75, R100). -/
  | clsAsBuilt (addr : Addr)
  /-- 1nnn, JP addr (R103). -/
  | jp (addr : Addr)
  /-- 2nnn, CALL addr (R104). -/
  | call (addr : Addr)
  /-- 3xkk, SE Vx, byte (R110). -/
  | seByte (x : Reg) (kk : Byte)
  /-- 4xkk, SNE Vx, byte (R111). -/
  | sneByte (x : Reg) (kk : Byte)
  /-- 5xyz, SE Vx, Vy; z is ignored (R112). -/
  | seReg (x y : Reg) (z : Nibble)
  /-- 6xkk, LD Vx, byte (R120). -/
  | ldByte (x : Reg) (kk : Byte)
  /-- 7xkk, ADD Vx, byte (R121). -/
  | addByte (x : Reg) (kk : Byte)
  /-- 8xy0, LD Vx, Vy (R131). -/
  | ldReg (x y : Reg)
  /-- 8xy1, OR Vx, Vy (R132). -/
  | orReg (x y : Reg)
  /-- 8xy2, AND Vx, Vy (R133). -/
  | andReg (x y : Reg)
  /-- 8xy3, XOR Vx, Vy (R134). -/
  | xorReg (x y : Reg)
  /-- 8xy4, ADD Vx, Vy (R135). -/
  | addReg (x y : Reg)
  /-- 8xy5, SUB Vx, Vy (R136). -/
  | subReg (x y : Reg)
  /-- 8xy6, SHR Vx, Vy (R137). -/
  | shrReg (x y : Reg)
  /-- 8xy7, SUBN Vx, Vy (R138). -/
  | subnReg (x y : Reg)
  /-- 8xyE, SHL Vx, Vy (R139). -/
  | shlReg (x y : Reg)
  /-- 8xyz with z in 8, 9, A, B, C, D, F: a no-op (R140). -/
  | unimpl8 (x y : Reg) (z : Nibble)
  /-- 9xyz, SNE Vx, Vy; z is ignored (R113). -/
  | sneReg (x y : Reg) (z : Nibble)
  /-- Annn, a no-op (R150). -/
  | unimplA (addr : Addr)
  /-- Bnnn, a no-op (R150). -/
  | unimplB (addr : Addr)
  /-- Cxkk, a no-op (R150). -/
  | unimplC (x : Reg) (kk : Byte)
  /-- Dxyz, a no-op (R150). -/
  | unimplD (x y : Reg) (z : Nibble)
  /-- Exyz, a no-op (R150). -/
  | unimplE (x y : Reg) (z : Nibble)
  /-- Fxyz, a no-op (R150). -/
  | unimplF (x y : Reg) (z : Nibble)
deriving DecidableEq, Repr

end Sys2Proof
end

