-- ==== Sys2Proof/WellFormed.lean ====
section
/-! DEFINITION. Which instructions have a word of their own under each value of ZERO_DISPATCH (R75, R76, R78). -/

namespace Sys2Proof

/-- The two `addr` constants that select CLS and RET under `compare` (R75). -/
def clsAddr : Addr := 0x0E0
def retAddr : Addr := 0x0EE

/-- The selectors of family 0x8 that have a row of priority 0 (R76). -/
def isAluSelector (z : Nibble) : Bool :=
  z.toNat ≤ 7 || z == 0xE

/-- An instruction is well formed under a mode when it is what some word decodes to in that mode: CLS, RET and SYS
exist only under `compare`, the catch-all CLS only under `as_built`; SYS is no spelling of the CLS and RET words
(R75, R102); UNIMPL_8 takes only the selectors without a row (R76, R140). -/
def Instr.wf (m : ZeroDispatch) : Instr → Bool
  | .cls => m == .compare
  | .ret => m == .compare
  | .sys addr => m == .compare && addr != clsAddr && addr != retAddr
  | .clsAsBuilt _ => m == .asBuilt
  | .unimpl8 _ _ z => !isAluSelector z
  | .jp _ => true
  | .call _ => true
  | .seByte _ _ => true
  | .sneByte _ _ => true
  | .seReg _ _ _ => true
  | .ldByte _ _ => true
  | .addByte _ _ => true
  | .ldReg _ _ => true
  | .orReg _ _ => true
  | .andReg _ _ => true
  | .xorReg _ _ => true
  | .addReg _ _ => true
  | .subReg _ _ => true
  | .shrReg _ _ => true
  | .subnReg _ _ => true
  | .shlReg _ _ => true
  | .sneReg _ _ _ => true
  | .unimplA _ => true
  | .unimplB _ => true
  | .unimplC _ _ => true
  | .unimplD _ _ _ => true
  | .unimplE _ _ _ => true
  | .unimplF _ _ _ => true

end Sys2Proof
end

