-- ==== Sys2Proof/Decode.lean ====
section
/-! DEFINITION. The decoder, from words and from bytes, and after it the encoder, both from the opcode map of R78. -/

namespace Sys2Proof

/-! ## The fields of a word (R71) -/

/-- `family` = w[15:12]. -/
def family (w : Word) : Nibble := w.extractLsb' 12 4

/-- `x` = w[11:8], the register it selects. -/
def fieldX (w : Word) : Reg := regOf (w.extractLsb' 8 4)

/-- `y` = w[7:4], the register it selects. -/
def fieldY (w : Word) : Reg := regOf (w.extractLsb' 4 4)

/-- `z` = w[3:0]. -/
def fieldZ (w : Word) : Nibble := w.extractLsb' 0 4

/-- `addr` = w[11:0]. -/
def fieldAddr (w : Word) : Addr := w.extractLsb' 0 12

/-- `immediate` (kk) = w[7:0]. -/
def fieldKK (w : Word) : Byte := w.extractLsb' 0 8

/-! ## Dispatch -/

/-- Family 0x0, dispatched by `addr` according to ZERO_DISPATCH (R75). -/
def decodeZero (m : ZeroDispatch) (addr : Addr) : Instr :=
  match m with
  | .asBuilt => .clsAsBuilt addr
  | .compare => if addr = clsAddr then .cls else if addr = retAddr then .ret else .sys addr

/-- Family 0x8, dispatched by `z` (R76). -/
def decodeEight (x y : Reg) (z : Nibble) : Instr :=
  match z.toNat with
  | 0x0 => .ldReg x y
  | 0x1 => .orReg x y
  | 0x2 => .andReg x y
  | 0x3 => .xorReg x y
  | 0x4 => .addReg x y
  | 0x5 => .subReg x y
  | 0x6 => .shrReg x y
  | 0x7 => .subnReg x y
  | 0xE => .shlReg x y
  | _ => .unimpl8 x y z

/-- The decoder: total on the 65536 words in either mode (R74 to R79). The family is 4 bits wide, so the last arm is
family 0xF and nothing else. -/
def decode (m : ZeroDispatch) (w : Word) : Instr :=
  match (family w).toNat with
  | 0x0 => decodeZero m (fieldAddr w)
  | 0x1 => .jp (fieldAddr w)
  | 0x2 => .call (fieldAddr w)
  | 0x3 => .seByte (fieldX w) (fieldKK w)
  | 0x4 => .sneByte (fieldX w) (fieldKK w)
  | 0x5 => .seReg (fieldX w) (fieldY w) (fieldZ w)
  | 0x6 => .ldByte (fieldX w) (fieldKK w)
  | 0x7 => .addByte (fieldX w) (fieldKK w)
  | 0x8 => decodeEight (fieldX w) (fieldY w) (fieldZ w)
  | 0x9 => .sneReg (fieldX w) (fieldY w) (fieldZ w)
  | 0xA => .unimplA (fieldAddr w)
  | 0xB => .unimplB (fieldAddr w)
  | 0xC => .unimplC (fieldX w) (fieldKK w)
  | 0xD => .unimplD (fieldX w) (fieldY w) (fieldZ w)
  | 0xE => .unimplE (fieldX w) (fieldY w) (fieldZ w)
  | _ => .unimplF (fieldX w) (fieldY w) (fieldZ w)

/-- Why bytes do not decode. Every word decodes (R79), so the one reason is a missing byte. -/
inductive DecodeError where
  /-- Fewer than the two bytes of an instruction (R70) were given. -/
  | truncated
deriving DecidableEq, Repr

/-- The word of two fetched bytes: the first is bits 15:8, the second bits 7:0 (R58). -/
def wordOfBytes (hi lo : Byte) : Word := hi ++ lo

/-- Bits 15:8 of a word, its first byte in memory (R58). -/
def hiByte (w : Word) : Byte := w.extractLsb' 8 8

/-- Bits 7:0 of a word, its second byte in memory (R58). -/
def loByte (w : Word) : Byte := w.extractLsb' 0 8

/-- Decodes the first instruction of a byte sequence and returns it with the rest (R58, R70). -/
def decodeBytes (m : ZeroDispatch) : List Byte → Except DecodeError (Instr × List Byte)
  | hi :: lo :: rest => .ok (decode m (wordOfBytes hi lo), rest)
  | [_] => .error .truncated
  | [] => .error .truncated

/-- The instruction read from the bits of a table row: bits above `nbits` are zero, the word is laid out big-endian
(R58) and decoded under the default ZERO_DISPATCH (R11). Instructions have 16 bits, so a longer row has none. -/
def decodeTableWord (nbits w : Nat) : Option Instr :=
  let word : Word := BitVec.ofNat 16 (w % 2 ^ nbits)
  if nbits ≤ 16 then
    match decodeBytes Machine.defaultConfig.params.zeroDispatch [hiByte word, loByte word] with
    | .ok (i, _) => some i
    | .error _ => none
  else none

/-! ## Encoding (the formats of R72) -/

/-- Format A: family and a 12-bit address. -/
def formatA (f : Nibble) (addr : Addr) : Word := f ++ addr

/-- Format XK: family, register and immediate. -/
def formatXK (f : Nibble) (x : Reg) (kk : Byte) : Word := f ++ regBits x ++ kk

/-- Format XYZ: family, two registers and selector. -/
def formatXYZ (f : Nibble) (x y : Reg) (z : Nibble) : Word := f ++ regBits x ++ regBits y ++ z

/-- The word of an instruction, from the rows of R78. -/
def encode : Instr → Word
  | .cls => 0x00E0
  | .ret => 0x00EE
  | .sys addr => formatA 0x0 addr
  | .clsAsBuilt addr => formatA 0x0 addr
  | .jp addr => formatA 0x1 addr
  | .call addr => formatA 0x2 addr
  | .seByte x kk => formatXK 0x3 x kk
  | .sneByte x kk => formatXK 0x4 x kk
  | .seReg x y z => formatXYZ 0x5 x y z
  | .ldByte x kk => formatXK 0x6 x kk
  | .addByte x kk => formatXK 0x7 x kk
  | .ldReg x y => formatXYZ 0x8 x y 0x0
  | .orReg x y => formatXYZ 0x8 x y 0x1
  | .andReg x y => formatXYZ 0x8 x y 0x2
  | .xorReg x y => formatXYZ 0x8 x y 0x3
  | .addReg x y => formatXYZ 0x8 x y 0x4
  | .subReg x y => formatXYZ 0x8 x y 0x5
  | .shrReg x y => formatXYZ 0x8 x y 0x6
  | .subnReg x y => formatXYZ 0x8 x y 0x7
  | .shlReg x y => formatXYZ 0x8 x y 0xE
  | .unimpl8 x y z => formatXYZ 0x8 x y z
  | .sneReg x y z => formatXYZ 0x9 x y z
  | .unimplA addr => formatA 0xA addr
  | .unimplB addr => formatA 0xB addr
  | .unimplC x kk => formatXK 0xC x kk
  | .unimplD x y z => formatXYZ 0xD x y z
  | .unimplE x y z => formatXYZ 0xE x y z
  | .unimplF x y z => formatXYZ 0xF x y z

/-- The two bytes of an instruction as an image holds them (R56). -/
def encodeBytes (i : Instr) : List Byte := [hiByte (encode i), loByte (encode i)]

/-! ## The opcode table as data (R78, spec/opcode_table.json) -/

/-- One row of the opcode table (R78): a word `w` fits it when `w &&& mask = pattern`. -/
structure OpcodeRow where
  /-- The row's `match`. -/
  pattern : Word
  mask : Word
  /-- The modes in which the row exists: its `zero_dispatch`. -/
  inCompare : Bool
  inAsBuilt : Bool
  /-- The row's `priority` in opcode_table.json, number for number (log 25). -/
  priority : Nat
  /-- The row is marked "(else)" in R78: it applies "only when no more specific row of the same family matches". -/
  isElse : Bool
deriving DecidableEq, Repr

/-- The row exists in the mode and fits the word. -/
def OpcodeRow.fits (r : OpcodeRow) (m : ZeroDispatch) (w : Word) : Bool :=
  (match m with | .compare => r.inCompare | .asBuilt => r.inAsBuilt) && (w &&& r.mask == r.pattern)

/-- The rows of families 0x0 to 0x7, in the table's order. -/
def opcodeRowsLow : List OpcodeRow :=
  [⟨0x00E0, 0xFFFF, true, false, 0, false⟩, ⟨0x00EE, 0xFFFF, true, false, 0, false⟩,
   ⟨0x0000, 0xF000, true, false, 1, true⟩, ⟨0x0000, 0xF000, false, true, 1, false⟩,
   ⟨0x1000, 0xF000, true, true, 1, false⟩, ⟨0x2000, 0xF000, true, true, 1, false⟩,
   ⟨0x3000, 0xF000, true, true, 1, false⟩, ⟨0x4000, 0xF000, true, true, 1, false⟩,
   ⟨0x5000, 0xF000, true, true, 1, false⟩, ⟨0x6000, 0xF000, true, true, 1, false⟩,
   ⟨0x7000, 0xF000, true, true, 1, false⟩]

/-- The rows of family 0x8, in the table's order. -/
def opcodeRowsEight : List OpcodeRow :=
  [⟨0x8000, 0xF00F, true, true, 0, false⟩, ⟨0x8001, 0xF00F, true, true, 0, false⟩,
   ⟨0x8002, 0xF00F, true, true, 0, false⟩, ⟨0x8003, 0xF00F, true, true, 0, false⟩,
   ⟨0x8004, 0xF00F, true, true, 0, false⟩, ⟨0x8005, 0xF00F, true, true, 0, false⟩,
   ⟨0x8006, 0xF00F, true, true, 0, false⟩, ⟨0x8007, 0xF00F, true, true, 0, false⟩,
   ⟨0x800E, 0xF00F, true, true, 0, false⟩, ⟨0x8000, 0xF000, true, true, 1, true⟩]

/-- The rows of families 0x9 to 0xF, in the table's order. -/
def opcodeRowsHigh : List OpcodeRow :=
  [⟨0x9000, 0xF000, true, true, 1, false⟩, ⟨0xA000, 0xF000, true, true, 1, false⟩,
   ⟨0xB000, 0xF000, true, true, 1, false⟩, ⟨0xC000, 0xF000, true, true, 1, false⟩,
   ⟨0xD000, 0xF000, true, true, 1, false⟩, ⟨0xE000, 0xF000, true, true, 1, false⟩,
   ⟨0xF000, 0xF000, true, true, 1, false⟩]

/-- The 28 rows of spec/opcode_table.json. -/
def opcodeTable : List OpcodeRow := opcodeRowsLow ++ opcodeRowsEight ++ opcodeRowsHigh

/-- The index in `opcodeTable` of an instruction's row. -/
def Instr.tableRow : Instr → Nat
  | .cls => 0
  | .ret => 1
  | .sys _ => 2
  | .clsAsBuilt _ => 3
  | .jp _ => 4
  | .call _ => 5
  | .seByte _ _ => 6
  | .sneByte _ _ => 7
  | .seReg _ _ _ => 8
  | .ldByte _ _ => 9
  | .addByte _ _ => 10
  | .ldReg _ _ => 11
  | .orReg _ _ => 12
  | .andReg _ _ => 13
  | .xorReg _ _ => 14
  | .addReg _ _ => 15
  | .subReg _ _ => 16
  | .shrReg _ _ => 17
  | .subnReg _ _ => 18
  | .shlReg _ _ => 19
  | .unimpl8 _ _ _ => 20
  | .sneReg _ _ _ => 21
  | .unimplA _ => 22
  | .unimplB _ => 23
  | .unimplC _ _ => 24
  | .unimplD _ _ _ => 25
  | .unimplE _ _ _ => 26
  | .unimplF _ _ _ => 27

end Sys2Proof
end

