-- ==== Sys2Proof/Machine/State.lean ====
section
/-! DEFINITION. The machine's state as plain data, its reset value, and the reasons a step can stop. -/

namespace Sys2Proof.Machine

/-- The fatal causes (R160), the value of the `cause` register. Code 7 is reserved and has no name. -/
inductive Cause where
  /-- Code 0: no fatal condition, the reset value. -/
  | none
  /-- Code 1: CALL with the stack at capacity. -/
  | stackOverflow
  /-- Code 2: RET with the stack empty. -/
  | stackUnderflow
  /-- Code 3: a cycle begins with pc >= 0x1000. -/
  | programCounterOutOfRange
  /-- Code 4: the fetch reads a byte at an address >= 0x1000. -/
  | memoryOutOfRange
  /-- Code 5: the image is longer than 0xE00 bytes. -/
  | romTooLarge
  /-- Code 6: never raised by the block, reserved for the driver. -/
  | romNotFound
deriving DecidableEq, Repr

/-- The call stack (R28): STACK_CAP entries of 16 bits and SP, the number of entries in use, in [0, STACK_CAP].
Entries at index >= SP are kept though no rule reads them (R29). -/
structure CallStack where
  /-- STACK_CAP, the parameter of R11: no operation changes it. -/
  cap : Nat
  /-- STACK[0..STACK_CAP-1]. -/
  slots : Vector Word cap
  /-- SP. -/
  sp : Fin (cap + 1)
deriving DecidableEq, Repr

/-- The stack after reset: empty, every entry 0x0000 (R38). -/
def CallStack.empty (cap : Nat) : CallStack :=
  { cap := cap, slots := Vector.replicate cap 0, sp := 0 }

/-- One cell of the display (R32). -/
abbrev Pixel := BitVec 1

/-- DISP[col][row], 64 columns of 32 rows (R32). -/
abbrev Display := Vector (Vector Pixel displayH) displayW

/-- The display with every cell 0 (R32, R100). -/
def Display.clear : Display := Vector.replicate displayW (Vector.replicate displayH 0)

/-- Memory: the cells that differ from the reset contents, addresses strictly rising (`Memory.wf`, log 12). -/
abbrev Memory := List Host.Cell

/-- Why a step stops without a next state. No rule of the spec leaves the machine without one: every error is a fatal
condition, whose effect on the state R162 gives, so the type has no constructor (log 4). Safe. -/
inductive Fault where
deriving DecidableEq, Repr

/-- Why an operation is refused. -/
inductive Refusal where
  /-- An arm of `exec` without a meaning; no arm raises it. Safe. -/
  | notModelled (mnemonic : String)
  /-- The interface's `load` raises it outside the window of R46: a second load, or a load after the first step
  (R184, "a model refuses it"). No instruction raises it. Safe. -/
  | loadNotAccepted
deriving DecidableEq, Repr

/-- The state of the block: "exactly V[0..15], I, pc, STACK, SP, DT, ST, DISP, MEM, halted and cause" (R36), and
beside it the parameters it was built with (R11), which nothing changes (log 1). -/
structure State where
  /-- V[0..15] (R20); V[15] is the flag register (R22). -/
  v : Vector Byte numV
  /-- I, the index register (R25). -/
  i : Word
  /-- pc (R23). -/
  pc : Word
  /-- STACK and SP (R28). -/
  stack : CallStack
  /-- DT, the delay timer (R26). -/
  dt : Byte
  /-- ST, the sound timer (R26). -/
  st : Byte
  /-- DISP (R32). -/
  disp : Display
  /-- MEM (R34). -/
  mem : Memory
  /-- halted (R35). -/
  halted : Bool
  /-- cause (R35, R160). -/
  cause : Cause
  /-- ZERO_DISPATCH, FONT, TRACE_ENABLE, TIMER_TICK_WIRED (R11). -/
  params : Params
deriving DecidableEq, Repr

/-- The state the reset sequence leaves in a machine built with the given parameters (R38, R180). Memory lists
nothing: an unlisted address reads as the reset contents. -/
def State.resetWith (c : Config) : State :=
  { v := Vector.replicate numV 0
    i := 0x0000
    pc := 0x0200
    stack := CallStack.empty c.stackCap
    dt := 0x00
    st := 0x00
    disp := Display.clear
    mem := []
    halted := false
    cause := .none
    params := c.params }

/-- The machine right after reset, with the default parameters of R11. -/
def State.reset : State := State.resetWith defaultConfig

end Sys2Proof.Machine
end

