-- ==== Sys2Proof/Machine/Memory.lean ====
section
/-! DEFINITION. Memory as a canonical list of cells over the reset contents: reading and writing one byte. -/

namespace Sys2Proof.Machine

/-- The byte listed at an address, if one is. -/
def Memory.find? : Memory → Nat → Option Byte
  | [], _ => none
  | (k, b) :: m, a => if k = a then some b else Memory.find? m a

/-- MEM[a]: the listed byte, or the reset contents where none is listed (R38, R52; log 12). -/
def Memory.read (f : Font) (m : Memory) (a : Nat) : Byte :=
  (m.find? a).getD (resetByte f a)

/-- Lists a byte at an address, in its place in the rising order. -/
def Memory.put : Memory → Nat → Byte → Memory
  | [], a, b => [(a, b)]
  | (k, c) :: m, a, b =>
    if a < k then (a, b) :: (k, c) :: m
    else if a = k then (a, b) :: m
    else (k, c) :: Memory.put m a b

/-- Takes the entry at an address off the list. -/
def Memory.drop : Memory → Nat → Memory
  | [], _ => []
  | (k, c) :: m, a => if k = a then m else (k, c) :: Memory.drop m a

/-- MEM[a] <- b, in canonical form. There is no byte at 0x1000 and above (R50), and nothing is written there. -/
def Memory.write (f : Font) (m : Memory) (a : Nat) (b : Byte) : Memory :=
  if a < memSize then
    if b = resetByte f a then m.drop a else m.put a b
  else m

/-- The canonical form: addresses strictly rising and inside memory, no entry equal to what an unlisted address
reads as. -/
abbrev Memory.wf (f : Font) (m : Memory) : Prop :=
  m.Pairwise (fun c d => c.1 < d.1) ∧ ∀ c ∈ m, c.1 < memSize ∧ c.2 ≠ resetByte f c.1

end Sys2Proof.Machine
end

