-- ==== Sys2Proof/Machine/Ops.lean ====
section
/-! DEFINITION. The named operations over registers, stack, display and memory, and the one way a fatal condition is taken. -/

namespace Sys2Proof.Machine

/-! ## Registers (R14) -/

/-- V[x]. -/
def State.getV (s : State) (x : Reg) : Byte := s.v[x.val]

/-- V[x] <- b. -/
def State.setV (s : State) (x : Reg) (b : Byte) : State := { s with v := s.v.set x.val b }

/-- pc <- p. -/
def State.setPc (s : State) (p : Word) : State := { s with pc := p }

/-- pc <- (pc + 2) mod 2^16: the uniform advance of the cycle, and what a taken skip adds (R93, R95). -/
def State.advance (s : State) : State := s.setPc (s.pc + 2)

/-! ## Fatal conditions (R16, R162)

Entering the halted state is the machine's whole reaction to an error. There is no return from it: only the reset
sequence clears `halted` and `cause` (R164). -/

/-- The code of a cause on the 3-bit `status` output (R160). -/
def Cause.code : Cause → BitVec 3
  | .none => 0
  | .stackOverflow => 1
  | .stackUnderflow => 2
  | .programCounterOutOfRange => 3
  | .memoryOutOfRange => 4
  | .romTooLarge => 5
  | .romNotFound => 6

/-- halted <- true; cause <- c. Nothing else changes: no state is saved and control goes nowhere (R162). -/
def State.halt (s : State) (c : Cause) : State := { s with halted := true, cause := c }

/-- `raise Fatal(c)` (R16, R162): the operation ends here, in the halted state. -/
def raiseFatal (c : Cause) (s : State) : Host.Outcome State Fault Refusal := .next (s.halt c)

/-! ## The call stack (R29 to R31) -/

/-- SP. -/
def State.sp (s : State) : Nat := s.stack.sp.val

/-- STACK_CAP. -/
def State.stackCap (s : State) : Nat := s.stack.cap

/-- STACK[j], for j < STACK_CAP. -/
def State.slot? (s : State) (j : Nat) : Option Word := s.stack.slots[j]?

/-- Push(x) (R30): the overflow check comes before any write. -/
def CallStack.push (k : CallStack) (x : Word) : Except Cause CallStack :=
  if h : k.sp.val < k.cap then
    .ok { cap := k.cap
          slots := k.slots.set k.sp.val x
          sp := ⟨k.sp.val + 1, by omega⟩ }
  else .error .stackOverflow

/-- Pop() (R31): the underflow check comes before any write; the popped entry stays in its slot. -/
def CallStack.pop (k : CallStack) : Except Cause (Word × CallStack) :=
  if h : k.sp.val = 0 then .error .stackUnderflow
  else
    .ok (k.slots[k.sp.val - 1]'(by omega),
      { cap := k.cap
        slots := k.slots
        sp := ⟨k.sp.val - 1, by omega⟩ })

/-! ## The display (R32, R100) -/

/-- DISP[col][row]. -/
def State.pixel (s : State) (col : Fin displayW) (row : Fin displayH) : Pixel := s.disp[col.val][row.val]

/-- For every col and row, DISP[col][row] <- 0 (R100). -/
def State.clearDisplay (s : State) : State := { s with disp := Display.clear }

/-! ## Memory (R15, R55, R57) -/

/-- MEM[a]. -/
def State.readByte (s : State) (a : Nat) : Byte := s.mem.read s.params.font a

/-- MEM[a] <- b. -/
def State.writeByte (s : State) (a : Nat) (b : Byte) : State :=
  { s with mem := s.mem.write s.params.font a b }

/-- The bytes from an address upward, in memory order. -/
def State.readBytes (s : State) : Nat → Nat → List Byte
  | _, 0 => []
  | a, n + 1 => s.readByte a :: s.readBytes (a + 1) n

/-- Bytes written one after the other from an address upward (R55). -/
def State.writeBytes (s : State) : Nat → List Byte → State
  | _, [] => s
  | a, b :: bs => (s.writeByte a b).writeBytes (a + 1) bs

/-- Bytes combined big-endian: the first is the most significant (R15, R57). -/
def bigEndian (bs : List Byte) : Nat := bs.foldl (fun acc b => acc * 256 + b.toNat) 0

/-- `MemRead(addr, n)` (R57): every byte address is checked before the value is returned; the addition is on
unbounded integers (R13). For n >= 1 the last byte is the first to leave memory. -/
def State.memRead (s : State) (addr : Word) (n : Nat) : Except Cause Nat :=
  if addr.toNat + n ≤ memSize then .ok (bigEndian (s.readBytes addr.toNat n))
  else .error .memoryOutOfRange

/-- The n bytes of a number, big-endian (R15). -/
def bytesBE (x : Nat) : Nat → List Byte
  | 0 => []
  | n + 1 => BitVec.ofNat 8 (x / 256 ^ n) :: bytesBE x n

/-- `MemWrite(addr, n, x)` (R15): n bytes, big-endian. No instruction uses it. -/
def State.memWrite (s : State) (addr : Word) (n : Nat) (x : Nat) : State :=
  s.writeBytes addr.toNat (bytesBE x n)

end Sys2Proof.Machine
end

