-- ==== Sys2Proof/Machine/Flags.lean ====
section
/-! DEFINITION. The flag computations of family 0x8: carry, strictly greater, and the bit shifted out. -/

namespace Sys2Proof.Machine

/-- `bit(c)` as a byte: 1 if the condition holds and 0 otherwise (R13). -/
def bit (c : Bool) : Byte := if c then 1 else 0

/-- ADD: the unsigned sum exceeds 255 (R135). -/
def carryFlag (a b : Byte) : Byte := bit (decide (a.toNat + b.toNat > 255))

/-- SUB and SUBN: the minuend is strictly greater, so equal values yield 0 (R136, R138). -/
def greaterFlag (a b : Byte) : Byte := bit (decide (a.toNat > b.toNat))

/-- SHR: bit 0, the bit shifted out (R137). -/
def bottomBit (b : Byte) : Byte := b &&& 0x01

/-- SHL: bit 7, the bit shifted out (R139). -/
def topBit (b : Byte) : Byte := (b >>> 7) &&& 0x01

end Sys2Proof.Machine
end

