-- ==== Sys2Proof/Machine/Operands.lean ====
section
/-! DEFINITION. The operand forms: register, immediate and address (R73), and the pre-adjusted target of a jump (R94). -/

namespace Sys2Proof.Machine

/-- The operand V[x] selected by a register field (R73). -/
def regOperand (s : State) (x : Reg) : Byte := s.getV x

/-- The immediate, "an 8-bit unsigned value used as-is" (R73). -/
def immOperand (kk : Byte) : Byte := kk

/-- What a transfer of control writes to pc: `(zext_16(addr) - 2) mod 2^16`, so that the uniform advance lands on
`addr` (R94). -/
def preAdjusted (addr : Addr) : Word := zext16 addr - 2

end Sys2Proof.Machine
end

