-- ==== Sys2Proof/Machine/Alu.lean ====
section
/-! DEFINITION. The register-register operations of family 0x8 (R130 to R140). -/

namespace Sys2Proof.Machine

/-- V[x] <- f V[x] V[y], no flag: the shape of 8xy0 to 8xy3. -/
def combine (f : Byte → Byte → Byte) (x y : Reg) (s : State) : Host.Outcome State Fault Refusal :=
  .next (s.setV x (f (regOperand s x) (regOperand s y)))

/-- The order of R130: VF <- flag V[x] V[y], then V[x] <- result V[x] V[y], the second line reading the registers
after the VF write (log 8). -/
def flagThenResult (flag result : Byte → Byte → Byte) (x y : Reg) (s : State) : Host.Outcome State Fault Refusal :=
  let t := s.setV vf (flag (regOperand s x) (regOperand s y))
  .next (t.setV x (result (regOperand t x) (regOperand t y)))

/-- LD Vx, Vy (R131). -/
def execLdReg (x y : Reg) (s : State) : Host.Outcome State Fault Refusal := combine (fun _ b => b) x y s

/-- OR Vx, Vy (R132). -/
def execOrReg (x y : Reg) (s : State) : Host.Outcome State Fault Refusal := combine (fun a b => a ||| b) x y s

/-- AND Vx, Vy (R133). -/
def execAndReg (x y : Reg) (s : State) : Host.Outcome State Fault Refusal := combine (fun a b => a &&& b) x y s

/-- XOR Vx, Vy (R134). -/
def execXorReg (x y : Reg) (s : State) : Host.Outcome State Fault Refusal := combine (fun a b => a ^^^ b) x y s

/-- ADD Vx, Vy (R135): both operands are read before any write; VF <- carry, then V[x] <- sum mod 2^8. -/
def execAddReg (x y : Reg) (s : State) : Host.Outcome State Fault Refusal :=
  let a := regOperand s x
  let b := regOperand s y
  .next ((s.setV vf (carryFlag a b)).setV x (a + b))

/-- SUB Vx, Vy (R136). -/
def execSubReg (x y : Reg) (s : State) : Host.Outcome State Fault Refusal :=
  flagThenResult (fun a b => greaterFlag a b) (fun a b => a - b) x y s

/-- SHR Vx, Vy (R137): V[y] shifted right by 1. -/
def execShrReg (x y : Reg) (s : State) : Host.Outcome State Fault Refusal :=
  flagThenResult (fun _ b => bottomBit b) (fun _ b => b >>> 1) x y s

/-- SUBN Vx, Vy (R138). -/
def execSubnReg (x y : Reg) (s : State) : Host.Outcome State Fault Refusal :=
  flagThenResult (fun a b => greaterFlag b a) (fun a b => b - a) x y s

/-- SHL Vx, Vy (R139): V[y] shifted left by 1, 8-bit truncation. -/
def execShlReg (x y : Reg) (s : State) : Host.Outcome State Fault Refusal :=
  flagThenResult (fun _ b => topBit b) (fun _ b => b <<< 1) x y s

/-- UNIMPL_8 (R140): nothing; the cycle advances pc. -/
def execUnimpl8 (_x _y : Reg) (_z : Nibble) (s : State) : Host.Outcome State Fault Refusal := .next s

end Sys2Proof.Machine
end

