-- ==== Sys2Proof/Machine/Flow.lean ====
section
/-! DEFINITION. Family 0x0, jump and call: CLS, RET, SYS, JP, CALL (R100 to R104). -/

namespace Sys2Proof.Machine

/-- CLS (R100): every cell of the display becomes 0. -/
def execCls (s : State) : Host.Outcome State Fault Refusal := .next s.clearDisplay

/-- CLS as every word of family 0x0 under `as_built` (R75, R100); `addr` is not used. -/
def execClsAsBuilt (_addr : Addr) (s : State) : Host.Outcome State Fault Refusal := .next s.clearDisplay

/-- RET (R101): pc <- Pop(); the uniform advance then adds 2. StackUnderflow when SP = 0. -/
def execRet (s : State) : Host.Outcome State Fault Refusal :=
  match s.stack.pop with
  | .error c => raiseFatal c s
  | .ok (t, k) => .next ({ s with stack := k }.setPc t)

/-- SYS addr (R102): nothing; the cycle advances pc. -/
def execSys (_addr : Addr) (s : State) : Host.Outcome State Fault Refusal := .next s

/-- JP addr (R103). -/
def execJp (addr : Addr) (s : State) : Host.Outcome State Fault Refusal := .next (s.setPc (preAdjusted addr))

/-- CALL addr (R104): Push(pc), the CALL's own address, then jump. StackOverflow when SP = STACK_CAP. -/
def execCall (addr : Addr) (s : State) : Host.Outcome State Fault Refusal :=
  match s.stack.push s.pc with
  | .error c => raiseFatal c s
  | .ok k => .next ({ s with stack := k }.setPc (preAdjusted addr))

end Sys2Proof.Machine
end

