-- ==== Sys2Proof/Machine/LoadAdd.lean ====
section
/-! DEFINITION. Load immediate and add immediate (R120, R121). -/

namespace Sys2Proof.Machine

/-- LD Vx, byte (R120). -/
def execLdByte (x : Reg) (kk : Byte) (s : State) : Host.Outcome State Fault Refusal :=
  .next (s.setV x (immOperand kk))

/-- ADD Vx, byte (R121): 8-bit wraparound, no flag. -/
def execAddByte (x : Reg) (kk : Byte) (s : State) : Host.Outcome State Fault Refusal :=
  .next (s.setV x (regOperand s x + immOperand kk))

end Sys2Proof.Machine
end

