-- ==== Sys2Proof/Machine/Skip.lean ====
section
/-! DEFINITION. The conditional skips: SE and SNE in their two forms (R110 to R113). -/

namespace Sys2Proof.Machine

/-- A taken skip adds 2 to pc in the execute step (R95). -/
def skipIf (c : Bool) (s : State) : Host.Outcome State Fault Refusal := .next (if c then s.advance else s)

/-- SE Vx, byte (R110). -/
def execSeByte (x : Reg) (kk : Byte) (s : State) : Host.Outcome State Fault Refusal :=
  skipIf (regOperand s x == immOperand kk) s

/-- SNE Vx, byte (R111). -/
def execSneByte (x : Reg) (kk : Byte) (s : State) : Host.Outcome State Fault Refusal :=
  skipIf (regOperand s x != immOperand kk) s

/-- SE Vx, Vy (R112); z is ignored (R74). -/
def execSeReg (x y : Reg) (_z : Nibble) (s : State) : Host.Outcome State Fault Refusal :=
  skipIf (regOperand s x == regOperand s y) s

/-- SNE Vx, Vy (R113); z is ignored (R74). -/
def execSneReg (x y : Reg) (_z : Nibble) (s : State) : Host.Outcome State Fault Refusal :=
  skipIf (regOperand s x != regOperand s y) s

end Sys2Proof.Machine
end

