-- ==== Sys2Proof/Machine/Unimplemented.lean ====
section
/-! DEFINITION. Families 0xA to 0xF: "No operation is performed" (R150). None has its canonical CHIP-8 meaning (R8). -/

namespace Sys2Proof.Machine

/-- UNIMPL_A (R150): nothing; in particular I is not written. -/
def execUnimplA (_addr : Addr) (s : State) : Host.Outcome State Fault Refusal := .next s

/-- UNIMPL_B (R150): nothing; in particular no jump. -/
def execUnimplB (_addr : Addr) (s : State) : Host.Outcome State Fault Refusal := .next s

/-- UNIMPL_C (R150): nothing; in particular no register is written. -/
def execUnimplC (_x : Reg) (_kk : Byte) (s : State) : Host.Outcome State Fault Refusal := .next s

/-- UNIMPL_D (R150): nothing; in particular nothing is drawn and no flag is written. -/
def execUnimplD (_x _y : Reg) (_z : Nibble) (s : State) : Host.Outcome State Fault Refusal := .next s

/-- UNIMPL_E (R150): nothing; in particular no key is read. -/
def execUnimplE (_x _y : Reg) (_z : Nibble) (s : State) : Host.Outcome State Fault Refusal := .next s

/-- UNIMPL_F (R150): nothing; in particular no timer, no I and no memory is touched. -/
def execUnimplF (_x _y : Reg) (_z : Nibble) (s : State) : Host.Outcome State Fault Refusal := .next s

end Sys2Proof.Machine
end

