-- ==== Sys2Proof/Machine/Dispatch.lean ====
section
/-! DEFINITION. The dispatch: one arm per constructor, each a direct call of the instruction's meaning. `exec` is the execute step of R90 only; the pc check, the fetch and the uniform advance are in Machine/Engine.lean. -/

namespace Sys2Proof.Machine

/-- Execute(w) of R90: dispatch to one instruction rule. -/
def exec (i : Instr) (s : State) : Host.Outcome State Fault Refusal :=
  match i with
  | .cls => Sys2Proof.Machine.execCls s
  | .ret => Sys2Proof.Machine.execRet s
  | .sys addr => Sys2Proof.Machine.execSys addr s
  | .clsAsBuilt addr => Sys2Proof.Machine.execClsAsBuilt addr s
  | .jp addr => Sys2Proof.Machine.execJp addr s
  | .call addr => Sys2Proof.Machine.execCall addr s
  | .seByte x kk => Sys2Proof.Machine.execSeByte x kk s
  | .sneByte x kk => Sys2Proof.Machine.execSneByte x kk s
  | .seReg x y z => Sys2Proof.Machine.execSeReg x y z s
  | .ldByte x kk => Sys2Proof.Machine.execLdByte x kk s
  | .addByte x kk => Sys2Proof.Machine.execAddByte x kk s
  | .ldReg x y => Sys2Proof.Machine.execLdReg x y s
  | .orReg x y => Sys2Proof.Machine.execOrReg x y s
  | .andReg x y => Sys2Proof.Machine.execAndReg x y s
  | .xorReg x y => Sys2Proof.Machine.execXorReg x y s
  | .addReg x y => Sys2Proof.Machine.execAddReg x y s
  | .subReg x y => Sys2Proof.Machine.execSubReg x y s
  | .shrReg x y => Sys2Proof.Machine.execShrReg x y s
  | .subnReg x y => Sys2Proof.Machine.execSubnReg x y s
  | .shlReg x y => Sys2Proof.Machine.execShlReg x y s
  | .unimpl8 x y z => Sys2Proof.Machine.execUnimpl8 x y z s
  | .sneReg x y z => Sys2Proof.Machine.execSneReg x y z s
  | .unimplA addr => Sys2Proof.Machine.execUnimplA addr s
  | .unimplB addr => Sys2Proof.Machine.execUnimplB addr s
  | .unimplC x kk => Sys2Proof.Machine.execUnimplC x kk s
  | .unimplD x y z => Sys2Proof.Machine.execUnimplD x y z s
  | .unimplE x y z => Sys2Proof.Machine.execUnimplE x y z s
  | .unimplF x y z => Sys2Proof.Machine.execUnimplF x y z s

end Sys2Proof.Machine
end

