-- ==== Sys2Proof/Machine/Engine.lean ====
section
/-! DEFINITION. The fetch-decode-execute cycle around the execute step (R90 to R97). -/

namespace Sys2Proof.Machine

/-- The pc check (R91): pc is valid in [0, 0xFFF], checked once, before the fetch. -/
def State.checkPc (s : State) : Except Cause Unit :=
  if s.pc.toNat > 0x0FFF then .error .programCounterOutOfRange else .ok ()

/-- The fetch (R92): `MemRead(pc, 2)`, big-endian. -/
def State.fetch (s : State) : Except Cause Word :=
  match s.memRead s.pc 2 with
  | .error c => .error c
  | .ok w => .ok (BitVec.ofNat 16 w)

/-- The uniform advance (R93), made after every execute step that raised no fatal condition. -/
def finishCycle (o : Host.Outcome State Fault Refusal) : Host.Outcome State Fault Refusal :=
  match o with
  | .next t => .next (if t.halted then t else t.advance)
  | .fault r => .fault r
  | .refused r => .refused r

/-- One cycle (R90): pc check, fetch, decode, execute, advance. -/
def cycle (s : State) : Host.Outcome State Fault Refusal :=
  match s.checkPc with
  | .error c => raiseFatal c s
  | .ok () =>
    match s.fetch with
    | .error c => raiseFatal c s
    | .ok w => finishCycle (exec (decode s.params.zeroDispatch w) s)

end Sys2Proof.Machine
end

