-- ==== Sys2Proof/Machine/Step.lean ====
section
/-! DEFINITION. One step of the machine (R41), and the placing of one instruction where the next step fetches. -/

namespace Sys2Proof.Machine

/-- `step` (R41): one cycle, unless the block is halted; then nothing changes. -/
def step (s : State) : Host.Outcome State Fault Refusal :=
  if s.halted then .next s else cycle s

/-- The state with one instruction word at pc, high byte first (R58), as a load would leave it there (log 11). The
bits above `nbits` are zero. -/
def State.withFetchWord (s : State) (nbits w : Nat) : State := s.memWrite s.pc 2 (w % 2 ^ nbits)

end Sys2Proof.Machine
end

