-- ==== Sys2Proof/Machine/Loader.lean ====
section
/-! DEFINITION. The operations of the environment on the state other than `step`: the reset sequence, the loader and the timer tick (R42, R47, R55, R180). -/

namespace Sys2Proof.Machine

/-- The configuration the machine was built with (R11). -/
def State.config (s : State) : Config := { stackCap := s.stackCap, params := s.params }

/-- The reset sequence (R180), "at any time between transactions" (R182): every piece of state at its value of R38,
the machine's parameters kept. -/
def State.doReset (s : State) : State := State.resetWith s.config

/-- The loader (R55): the size check precedes every write; byte i of the image goes to 0x200 + i. -/
def State.loadImage (s : State) (image : List Byte) : State :=
  if image.length > maxRom then s.halt .romTooLarge else s.writeBytes progBase image

/-- A counter with "a floor of zero" (R26, R47). -/
def tickDown (b : Byte) : Byte := if b.toNat > 0 then b - 1 else b

/-- `timer_tick` (R47): nothing unless TIMER_TICK_WIRED. -/
def State.timerTick (s : State) : State :=
  if s.params.timerTickWired then { s with dt := tickDown s.dt, st := tickDown s.st } else s

end Sys2Proof.Machine
end

