-- ==== Sys2Proof/Machine/Interface.lean ====
section
/-! DEFINITION. The transaction-level interface of the block: inputs reset, load, step, timer_tick; outputs display, status, trace (R39 to R47). -/

namespace Sys2Proof.Machine

/-! ## Outputs -/

/-- `display` (R43): the 2048 bits of DISP. -/
def State.display (s : State) : Display := s.disp

/-- What `status` carries (R44). -/
structure Status where
  halted : Bool
  code : BitVec 3
deriving DecidableEq, Repr

/-- `status` (R44): halted and the cause code of R160. -/
def State.status (s : State) : Status := { halted := s.halted, code := s.cause.code }

/-- One trace record (R45): the two fetched bytes in fetch order and V[0..15] as the cycle left them. -/
structure TraceRecord where
  first : Byte
  second : Byte
  regs : Vector Byte numV
deriving DecidableEq, Repr

/-- `trace` (R45, step 6 of R90): the record of the cycle a `step` from this state runs. There is one when
TRACE_ENABLE is true and the cycle completes without a fatal condition; a halted block runs no cycle. -/
def State.trace (s : State) : Option TraceRecord :=
  if s.params.traceEnable && !s.halted then
    match s.fetch, step s with
    | .ok w, .next t =>
      if t.halted then none else some { first := hiByte w, second := loByte w, regs := t.v }
    | _, _ => none
  else none

/-! ## Inputs -/

/-- The transactions of R40. -/
inductive Transaction where
  | reset
  | load (image : List Byte)
  | step
  | timerTick
deriving DecidableEq, Repr

/-- The block with the history its interface needs: whether a `load` is still accepted (R46), and the trace records
emitted, oldest first (R45). Neither is state of the block (R36; log 13, log 15). -/
structure Session where
  state : State
  loadOpen : Bool
  records : List TraceRecord
deriving DecidableEq, Repr

/-- A block right after `reset`, with nothing loaded and nothing emitted. -/
def Session.start (c : Config) : Session := { state := State.resetWith c, loadOpen := true, records := [] }

/-- One transaction (R39): `reset` opens the load window; `load` is accepted once, before the first `step` (R46), and
any other is refused (R184); `step` closes the window and may emit a record; `timer_tick` touches the timers only. -/
def Session.apply (x : Transaction) (e : Session) : Host.Outcome Session Fault Refusal :=
  match x with
  | .reset => .next { e with state := e.state.doReset, loadOpen := true }
  | .load image =>
    if e.loadOpen then .next { e with state := e.state.loadImage image, loadOpen := false }
    else .refused .loadNotAccepted
  | .step =>
    match step e.state with
    | .next t => .next { state := t, loadOpen := false, records := e.records ++ e.state.trace.toList }
    | .fault r => .fault r
    | .refused r => .refused r
  | .timerTick => .next { e with state := e.state.timerTick }

/-- Transactions in the order they are issued, up to the first that is refused. -/
def Session.applyAll : List Transaction → Session → Host.Outcome Session Fault Refusal
  | [], e => .next e
  | x :: xs, e =>
    match e.apply x with
    | .next e' => Session.applyAll xs e'
    | .fault r => .fault r
    | .refused r => .refused r

end Sys2Proof.Machine
end

