-- ==== Sys2Proof/Safety.lean ====
section
/-! DEFINITION. The terms claims are stated in: what the next step fetches, the invariants, what may change, which registers an instruction reads and writes, and well-nested runs. -/

namespace Sys2Proof.Machine

/-! ## The next instruction -/

/-- The block is not halted: a `step` runs a cycle (R41). -/
abbrev State.Running (s : State) : Prop := s.halted = false

/-- Both bytes of the instruction at pc are in memory: the pc check and the fetch pass (R91, R92). -/
abbrev State.Fetchable (s : State) : Prop := s.pc.toNat + 1 < 0x1000

/-- The word at pc: the byte at pc is bits 15:8 and the byte at pc+1 bits 7:0 (R58). -/
def State.wordAtPc (s : State) : Word := wordOfBytes (s.readByte s.pc.toNat) (s.readByte (s.pc.toNat + 1))

/-- The instruction the next cycle executes, if it gets that far. -/
def State.instrAtPc (s : State) : Instr := decode s.params.zeroDispatch s.wordAtPc

/-- A run is safe for n steps when none of them leaves the block halted. -/
def SafeRun : Nat → State → Prop
  | 0, s => s.Running
  | n + 1, s => s.Running ∧ ∀ t, step s = .next t → SafeRun n t

/-- n steps of the block, by the host's own run. -/
def runSteps (n : Nat) (s : State) : Host.Outcome State Fault Refusal := Host.Core.run Sys2Proof.core n s

/-! ## Invariants -/

/-- Memory has its canonical form. -/
abbrev State.memWf (s : State) : Prop := s.mem.wf s.params.font

/-- The machine's invariant: memory is canonical; the block is halted exactly when a cause is recorded (R35, R162);
the cause is never the one only the driver reports (R160). -/
structure State.Inv (s : State) : Prop where
  memWf : s.memWf
  haltedIffCause : s.halted = true ↔ s.cause ≠ .none
  causeRaised : s.cause ≠ .romNotFound

/-- Where code can be: pc is at most 0x1002, two past a skip taken at 0xFFE (R114), and every saved pc in use is the
address of a CALL, so at most 0xFFE (R101). -/
structure State.CodeBounds (s : State) : Prop where
  pcBound : s.pc.toNat ≤ 0x1002
  stackBound : ∀ j x, j < s.sp → s.slot? j = some x → x.toNat ≤ 0xFFE

/-- The invariant of a block with its interface: the machine's own, and a halted block accepts no load, since both
ways to halt close the load window (R46, R183). -/
structure Session.Inv (e : Session) : Prop where
  state : e.state.Inv
  haltedClosed : e.state.halted = true → e.loadOpen = false

/-! ## What may change -/

/-- Nothing but general registers changes. -/
structure OnlyRegistersChange (s t : State) : Prop where
  i : t.i = s.i
  pc : t.pc = s.pc
  stack : t.stack = s.stack
  dt : t.dt = s.dt
  st : t.st = s.st
  disp : t.disp = s.disp
  halted : t.halted = s.halted
  cause : t.cause = s.cause
  params : t.params = s.params
  bytes : ∀ a, t.readByte a = s.readByte a

/-- Nothing but pc and the call stack changes, and not STACK_CAP. -/
structure OnlyPcAndStackChange (s t : State) : Prop where
  v : ∀ r, t.getV r = s.getV r
  i : t.i = s.i
  stackCap : t.stackCap = s.stackCap
  dt : t.dt = s.dt
  st : t.st = s.st
  disp : t.disp = s.disp
  halted : t.halted = s.halted
  cause : t.cause = s.cause
  params : t.params = s.params
  bytes : ∀ a, t.readByte a = s.readByte a

/-- Nothing but pc changes. -/
structure OnlyPcChanges (s t : State) : Prop where
  rest : OnlyPcAndStackChange s t
  stack : t.stack = s.stack

/-- Nothing but the display changes. -/
structure OnlyDisplayChanges (s t : State) : Prop where
  v : ∀ r, t.getV r = s.getV r
  i : t.i = s.i
  pc : t.pc = s.pc
  stack : t.stack = s.stack
  dt : t.dt = s.dt
  st : t.st = s.st
  halted : t.halted = s.halted
  cause : t.cause = s.cause
  params : t.params = s.params
  bytes : ∀ a, t.readByte a = s.readByte a

/-- The state a fatal condition with cause `c` leaves: nothing but halted and cause changes (R162). -/
structure HaltedWith (c : Cause) (s t : State) : Prop where
  halted : t.halted = true
  cause : t.cause = c
  v : ∀ r, t.getV r = s.getV r
  i : t.i = s.i
  pc : t.pc = s.pc
  stack : t.stack = s.stack
  dt : t.dt = s.dt
  st : t.st = s.st
  disp : t.disp = s.disp
  params : t.params = s.params
  bytes : ∀ a, t.readByte a = s.readByte a

/-- The table of R38 for a machine built with `c`: what the reset sequence leaves (R180). -/
structure IsReset (c : Config) (s : State) : Prop where
  v : ∀ r, s.getV r = 0
  i : s.i = 0
  pc : s.pc = 0x0200
  sp : s.sp = 0
  stackCap : s.stackCap = c.stackCap
  slots : ∀ j, j < c.stackCap → s.slot? j = some 0
  dt : s.dt = 0
  st : s.st = 0
  disp : ∀ col row, s.pixel col row = 0
  halted : s.halted = false
  cause : s.cause = .none
  params : s.params = c.params
  font : ∀ (g : Fin 16) (k : Fin 5), s.readByte (5 * g.val + k.val) = c.params.font[g.val][k.val]
  zeroed : ∀ a, 0x050 ≤ a → a < 0x1000 → s.readByte a = 0

/-! ## Registers read and written (R21) -/

end Sys2Proof.Machine

namespace Sys2Proof

/-- The five instructions that write a flag to VF as a side effect (R22). -/
def Instr.writesFlag : Instr → Bool
  | .addReg _ _ => true
  | .subReg _ _ => true
  | .shrReg _ _ => true
  | .subnReg _ _ => true
  | .shlReg _ _ => true
  | _ => false

/-- The register an instruction names as its destination (R21). -/
def Instr.dest : Instr → Option Reg
  | .ldByte x _ => some x
  | .addByte x _ => some x
  | .ldReg x _ => some x
  | .orReg x _ => some x
  | .andReg x _ => some x
  | .xorReg x _ => some x
  | .addReg x _ => some x
  | .subReg x _ => some x
  | .shrReg x _ => some x
  | .subnReg x _ => some x
  | .shlReg x _ => some x
  | _ => none

/-- The registers an instruction may write, by the table of R21. -/
def Instr.writes (i : Instr) : List Reg :=
  i.dest.toList ++ if i.writesFlag then [vf] else []

/-- The registers an instruction reads, by the table of R21. -/
def Instr.reads : Instr → List Reg
  | .seByte x _ => [x]
  | .sneByte x _ => [x]
  | .seReg x y _ => [x, y]
  | .sneReg x y _ => [x, y]
  | .addByte x _ => [x]
  | .ldReg _ y => [y]
  | .orReg x y => [x, y]
  | .andReg x y => [x, y]
  | .xorReg x y => [x, y]
  | .addReg x y => [x, y]
  | .subReg x y => [x, y]
  | .subnReg x y => [x, y]
  | .shrReg _ y => [y]
  | .shlReg _ y => [y]
  | _ => []

/-- CALL. -/
def Instr.isCall : Instr → Bool
  | .call _ => true
  | _ => false

/-- RET. -/
def Instr.isRet : Instr → Bool
  | .ret => true
  | _ => false

end Sys2Proof

namespace Sys2Proof.Machine

/-! ## Well-nested runs (R105) -/

/-- The state runs the instruction `i` in its next cycle. -/
structure State.Runs (s : State) (i : Instr) : Prop where
  running : s.Running
  fetchable : s.Fetchable
  instr : s.instrAtPc = i

/-- `Balanced s u`: a run leads from `s` to `u` in which every CALL is matched by its RET: it is made of cycles that
neither call nor return, and of calls whose callee is itself balanced up to its RET. -/
inductive Balanced : State → State → Prop where
  | done (s : State) : Balanced s s
  | plain {s t u : State} {i : Instr} : s.Runs i → i.isCall = false → i.isRet = false → step s = .next t →
      Balanced t u → Balanced s u
  | nested {s t u w x : State} {addr : Addr} : s.Runs (.call addr) → step s = .next t → t.Running → Balanced t u →
      u.Runs .ret → step u = .next w → Balanced w x → Balanced s x

/-- Two states that a program cannot tell apart: equal but for I, DT, ST, DISP and the stack entries at index >= SP
(R25, R26, R29, R32). -/
structure Indistinct (s t : State) : Prop where
  v : ∀ r, s.getV r = t.getV r
  pc : s.pc = t.pc
  sp : s.sp = t.sp
  stackCap : s.stackCap = t.stackCap
  live : ∀ j, j < s.sp → s.slot? j = t.slot? j
  bytes : ∀ a, s.readByte a = t.readByte a
  halted : s.halted = t.halted
  cause : s.cause = t.cause
  params : s.params = t.params

/-- The same machine with TRACE_ENABLE set to `b`. -/
def State.withTrace (s : State) (b : Bool) : State := { s with params := { s.params with traceEnable := b } }

end Sys2Proof.Machine
end

