-- ==== Sys2Proof/Certificates/Slice0/Obligations.lean ====
section
/-! DEFINITION. The statements for the provers: what the spec's rules say of the reset, the interface, the decoder, the cycle, every instruction, and whole runs. -/

open Sys2Proof Sys2Proof.Machine

/-! ## Reset, load, interface -/

/-- R180, R42: the reset sequence leaves every piece of state at its value of R38, from any state and with any
parameters. SP, STACK, DT, ST, DISP, halted and cause are the spec's own decisions D9 to D11 (log 3, log 4). That the transaction `reset` keeps the trace
records already emitted and opens the load window again are the model's own choices (log 15, log 13). -/
def Obligations.ResetSequence : Prop :=
  (∀ c : Config, IsReset c (State.resetWith c)) ∧
  IsReset defaultConfig State.reset ∧
  ∀ e : Session, ∃ s, e.apply .reset = .next { e with state := s, loadOpen := true } ∧ IsReset e.state.config s

/-- The invariants hold right after reset. The canonical form of memory is the model's own (log 12). -/
def Obligations.ResetMeetsInvariants : Prop :=
  ∀ c : Config, (State.resetWith c).Inv ∧ (State.resetWith c).CodeBounds ∧ (Session.start c).Inv

/-- R55: an image of at most 0xE00 bytes is placed byte by byte from 0x200 and nothing else changes; a longer one
raises RomTooLarge and writes nothing (that the size check comes first is the spec's decision D14, log 13). -/
def Obligations.LoaderContract : Prop :=
  ∀ (s : State) (image : List Byte),
    (0xE00 < image.length → HaltedWith .romTooLarge s (s.loadImage image)) ∧
    (s.memWf → image.length ≤ 0xE00 →
      (∀ (k : Nat) (h : k < image.length), (s.loadImage image).readByte (0x200 + k) = image[k]) ∧
      (∀ a, a < 0x200 ∨ 0x200 + image.length ≤ a → (s.loadImage image).readByte a = s.readByte a) ∧
      (s.loadImage image).memWf ∧
      s.loadImage image = { s with mem := (s.loadImage image).mem })

/-- R46, R184: `load` is accepted after `reset` and before the first `step`, and runs the loader; after a step or a
load every further load is refused until the next reset; loading the empty image changes nothing. All of it rests on
the spec's decision D14 (log 13); that a timer tick leaves the window as it is, is the model's reading (log 14). -/
def Obligations.LoadAcceptedOnce : Prop :=
  (∀ (e e₁ e₂ : Session) (xs : List Transaction) (image : List Byte), e.apply .reset = .next e₁ →
    (∀ x ∈ xs, x = .timerTick) → Session.applyAll xs e₁ = .next e₂ →
    ∃ e₃, e₂.apply (.load image) = .next e₃ ∧ e₃.state = e₂.state.loadImage image ∧ e₃.loadOpen = false) ∧
  (∀ (e e₁ e₂ : Session) (x : Transaction) (xs : List Transaction) (image : List Byte),
    (x = .step ∨ ∃ im, x = .load im) → e.apply x = .next e₁ → (∀ y ∈ xs, y ≠ .reset) →
    Session.applyAll xs e₁ = .next e₂ → e₂.apply (.load image) = .refused .loadNotAccepted) ∧
  ∀ s : State, s.loadImage [] = s

/-- R47: a wired `timer_tick` takes one off each counter that is above zero, and an unwired one changes nothing (the
spec's decision D15, log 14). The transaction `timer_tick` does that to the block, and keeps the records emitted and the
load window (the model's reading, log 14). -/
def Obligations.TimerTickCountsDown : Prop :=
  (∀ s : State,
    (s.params.timerTickWired = true →
      s.timerTick.dt.toNat = s.dt.toNat - 1 ∧ s.timerTick.st.toNat = s.st.toNat - 1 ∧
      s.timerTick = { s with dt := s.timerTick.dt, st := s.timerTick.st }) ∧
    (s.params.timerTickWired = false → s.timerTick = s)) ∧
  ∀ e : Session, e.apply .timerTick = .next { e with state := e.state.timerTick }

/-- R45: a completed cycle emits one record with the two fetched bytes and the registers it left, a fatal one and a
halted block emit none, TRACE_ENABLE off emits none, and TRACE_ENABLE affects no step (the spec's decision D16,
log 15). The transaction `step` runs one step on the block, appends exactly that record, if there is one, to those
already emitted, and closes the load window (R41, R46; log 13, log 24). -/
def Obligations.TraceOutput : Prop :=
  (∀ s t : State, s.Running → step s = .next t → t.halted = false → s.params.traceEnable = true →
    s.trace = some { first := s.readByte s.pc.toNat, second := s.readByte (s.pc.toNat + 1), regs := t.v }) ∧
  (∀ s t : State, step s = .next t → t.halted = true ∨ s.params.traceEnable = false → s.trace = none) ∧
  (∀ (s t : State) (b : Bool), step s = .next t → step (s.withTrace b) = .next (t.withTrace b)) ∧
  ∀ (e : Session) (t : State), step e.state = .next t →
    e.apply .step = .next { state := t, loadOpen := false, records := e.records ++ e.state.trace.toList }

/-! ## Decoding -/

/-- For every instruction with a word of its own in a mode, decoding its encoding gives it back, from the word and
from bytes, with every operand. It says that the decoder and the encoder agree (R71, R72, R78). -/
def Obligations.DecodeEncodeAgree : Prop :=
  ∀ (m : ZeroDispatch) (i : Instr), i.wf m = true →
    decode m (encode i) = i ∧ ∀ rest, decodeBytes m (encodeBytes i ++ rest) = .ok (i, rest)

/-- Every word decodes to a well-formed instruction, which the spec derives in R79. That this instruction encodes to the
same word, so that no bit is dropped, is no rule of the spec but the model's choice to keep the fields an instruction
ignores (log 17; fields and formats of 30_encoding.md section 1). -/
def Obligations.EveryWordDecodes : Prop :=
  ∀ (m : ZeroDispatch) (w : Word), (decode m w).wf m = true ∧ encode (decode m w) = w

/-- R78: the decoder takes, among the rows of the active mode that fit the word, the one with the lowest priority, and
there is exactly one; every other row that fits is one marked "(else)", so those apply only when no more specific row
fits. -/
def Obligations.DecodeTakesTheTablesRow : Prop :=
  ∀ (m : ZeroDispatch) (w : Word),
    ∃ r, opcodeTable[(decode m w).tableRow]? = some r ∧ r.fits m w = true ∧
      ∀ (k : Nat) (r' : OpcodeRow), opcodeTable[k]? = some r' → r'.fits m w = true → k ≠ (decode m w).tableRow →
        r.priority < r'.priority ∧ r'.isElse = true

/-- R71: the six fields of every word, whatever its family, as numbers: family the top nibble, x the second, y the
third, z the bottom one, addr the bottom 12 bits, kk the bottom 8, overlapping as the rule says; and every operand of
the decoded instruction is the number of its field. -/
def Obligations.OperandsAreTheWordsFields : Prop :=
  (∀ w : Word,
    (family w).toNat = w.toNat / 4096 ∧ (fieldX w).val = w.toNat / 256 % 16 ∧ (fieldY w).val = w.toNat / 16 % 16 ∧
    (fieldZ w).toNat = w.toNat % 16 ∧ (fieldAddr w).toNat = w.toNat % 4096 ∧ (fieldKK w).toNat = w.toNat % 256 ∧
    (fieldAddr w).toNat = (fieldX w).val * 256 + (fieldY w).val * 16 + (fieldZ w).toNat ∧
    (fieldKK w).toNat = (fieldY w).val * 16 + (fieldZ w).toNat) ∧
  ∀ (m : ZeroDispatch) (w : Word),
    let isX (x : Reg) := x.val = w.toNat / 256 % 16
    let isY (y : Reg) := y.val = w.toNat / 16 % 16
    let isZ (z : Nibble) := z.toNat = w.toNat % 16
    let isKK (kk : Byte) := kk.toNat = w.toNat % 256
    let isAddr (addr : Addr) := addr.toNat = w.toNat % 4096
    match decode m w with
    | .cls => True
    | .ret => True
    | .sys addr => isAddr addr
    | .clsAsBuilt addr => isAddr addr
    | .jp addr => isAddr addr
    | .call addr => isAddr addr
    | .seByte x kk => isX x ∧ isKK kk
    | .sneByte x kk => isX x ∧ isKK kk
    | .seReg x y z => isX x ∧ isY y ∧ isZ z
    | .ldByte x kk => isX x ∧ isKK kk
    | .addByte x kk => isX x ∧ isKK kk
    | .ldReg x y => isX x ∧ isY y
    | .orReg x y => isX x ∧ isY y
    | .andReg x y => isX x ∧ isY y
    | .xorReg x y => isX x ∧ isY y
    | .addReg x y => isX x ∧ isY y
    | .subReg x y => isX x ∧ isY y
    | .shrReg x y => isX x ∧ isY y
    | .subnReg x y => isX x ∧ isY y
    | .shlReg x y => isX x ∧ isY y
    | .unimpl8 x y z => isX x ∧ isY y ∧ isZ z
    | .sneReg x y z => isX x ∧ isY y ∧ isZ z
    | .unimplA addr => isAddr addr
    | .unimplB addr => isAddr addr
    | .unimplC x kk => isX x ∧ isKK kk
    | .unimplD x y z => isX x ∧ isY y ∧ isZ z
    | .unimplE x y z => isX x ∧ isY y ∧ isZ z
    | .unimplF x y z => isX x ∧ isY y ∧ isZ z

/-- R81, which the spec derives: the encoding examples of the source's scenarios. -/
def Obligations.EncodingExamplesDecode : Prop :=
  (∀ m, decode m 0x6005 = .ldByte 0 0x05 ∧ decode m 0x7010 = .addByte 0 0x10 ∧ decode m 0x2206 = .call 0x206 ∧
    decode m 0x1204 = .jp 0x204) ∧
  decode .compare 0x00E0 = .cls ∧ decode .compare 0x0000 = .sys 0x000 ∧ decode .asBuilt 0x0000 = .clsAsBuilt 0x000

/-- R75: family 0x0 under both values of ZERO_DISPATCH, by what the selected instruction does (the spec's decisions D1
and D2; log 6, log 16). -/
def Obligations.ZeroFamilyDispatch : Prop :=
  ∀ (addr : Addr) (s : State),
    exec (decode .asBuilt (formatA 0x0 addr)) s = exec .cls s ∧
    (addr = 0x0E0 → decode .compare (formatA 0x0 addr) = .cls) ∧
    (addr = 0x0EE → decode .compare (formatA 0x0 addr) = .ret) ∧
    (addr ≠ 0x0E0 → addr ≠ 0x0EE → decode .compare (formatA 0x0 addr) = .sys addr ∧
      exec (decode .compare (formatA 0x0 addr)) s = .next s)

/-- Families 0x5 and 0x9 execute alike for every z: what R74 says "in particular". -/
def Obligations.SkipsIgnoreSelector : Prop :=
  ∀ (m : ZeroDispatch) (x y : Reg) (z : Nibble) (s : State),
    exec (decode m (formatXYZ 0x5 x y z)) s = exec (decode m (formatXYZ 0x5 x y 0x0)) s ∧
    exec (decode m (formatXYZ 0x9 x y z)) s = exec (decode m (formatXYZ 0x9 x y 0x0)) s

/-! ## The cycle -/

/-- A step with the instruction's bytes in memory is `exec` of the instruction those bytes decode to, at any pc, odd or
even, and then the uniform advance unless a fatal condition was raised (R90, R93). -/
def Obligations.StepRunsTheDecodedInstruction : Prop :=
  ∀ s : State, s.Running → s.Fetchable →
    step s =
      match exec (decode s.params.zeroDispatch
          (wordOfBytes (s.readByte s.pc.toNat) (s.readByte (s.pc.toNat + 1)))) s with
      | .next t => .next (if t.halted then t else { t with pc := t.pc + 2 })
      | .fault r => .fault r
      | .refused r => .refused r

/-- R58: the fetched word is the byte at pc times 256 plus the byte at pc+1. -/
def Obligations.FetchIsBigEndian : Prop :=
  ∀ s : State, s.Fetchable →
    ∃ w, s.fetch = .ok w ∧ w.toNat = (s.readByte s.pc.toNat).toNat * 256 + (s.readByte (s.pc.toNat + 1)).toNat

/-- A word placed by the host's `withFetchWord` is the word the next step fetches, and only memory is touched.
The placing stands for a load (log 11). -/
def Obligations.PlacedWordIsFetched : Prop :=
  ∀ (s : State) (w : Nat), s.memWf → s.Fetchable → w < 2 ^ 16 →
    (s.withFetchWord 16 w).instrAtPc = decode s.params.zeroDispatch (BitVec.ofNat 16 w) ∧
    s.withFetchWord 16 w = { s with mem := (s.withFetchWord 16 w).mem } ∧
    ∀ a, a ≠ s.pc.toNat → a ≠ s.pc.toNat + 1 → (s.withFetchWord 16 w).readByte a = s.readByte a

/-- R91, R92 (the spec's decisions D6 and D7): a cycle ends with ProgramCounterOutOfRange exactly when it begins with
pc >= 0x1000, and with MemoryOutOfRange exactly when it begins with pc = 0xFFF; either way it writes nothing. -/
def Obligations.PcCheckAndFetchFaults : Prop :=
  ∀ s : State, s.Running → ∃ t, step s = .next t ∧
    (HaltedWith .programCounterOutOfRange s t ↔ 0x1000 ≤ s.pc.toNat) ∧
    (HaltedWith .memoryOutOfRange s t ↔ s.pc.toNat = 0xFFF)

/-- R160, R166: which cause a cycle reports on `status`, in the fixed order of the checks, and when it reports none. The
codes are the spec's decision D9 and the order is the spec's derivation (log 4, log 10). -/
def Obligations.FatalCausesInOrder : Prop :=
  ∀ s : State, s.Running →
    ∃ t, step s = .next t ∧
      (0x1000 ≤ s.pc.toNat → t.status = { halted := true, code := 3 }) ∧
      (s.pc.toNat = 0xFFF → t.status = { halted := true, code := 4 }) ∧
      (s.Fetchable → (∃ addr, s.instrAtPc = .call addr) → s.sp = s.stackCap →
        t.status = { halted := true, code := 1 }) ∧
      (s.Fetchable → s.instrAtPc = .ret → s.sp = 0 → t.status = { halted := true, code := 2 }) ∧
      (s.Fetchable → ¬((∃ addr, s.instrAtPc = .call addr) ∧ s.sp = s.stackCap) →
        ¬(s.instrAtPc = .ret ∧ s.sp = 0) → t.halted = false ∧ t.cause = s.cause)

/-- R97, in its last sentence, which the spec derives: a cycle that raises a fatal condition leaves every piece of state unchanged except halted and cause, and emits
no trace. -/
def Obligations.FatalConditionsArePrecise : Prop :=
  ∀ s t : State, s.Running → step s = .next t → t.halted = true →
    t.cause ≠ .none ∧ HaltedWith t.cause s t ∧ s.trace = none

/-- R41, R164: while halted every step changes nothing, and no transaction but `reset` changes halted or cause;
`reset` clears both (the spec's decision D10; log 4, log 5). -/
def Obligations.HaltIsPermanentUntilReset : Prop :=
  (∀ s : State, s.halted = true → ∀ n, runSteps n s = .next s) ∧
  (∀ (e e' : Session) (xs : List Transaction), e.Inv → e.state.halted = true → (∀ x ∈ xs, x ≠ .reset) →
    Session.applyAll xs e = .next e' → e'.state.halted = true ∧ e'.state.cause = e.state.cause) ∧
  ∀ e : Session, ∃ e', e.apply .reset = .next e' ∧ e'.state.halted = false ∧ e'.state.cause = .none

/-- R98, which the spec derives: pc after a completed cycle, for every instruction. -/
def Obligations.NetEffectOnPc : Prop :=
  ∀ s t : State, s.Running → s.Fetchable → step s = .next t → t.halted = false →
    match s.instrAtPc with
    | .jp addr => t.pc.toNat = addr.toNat
    | .call addr => t.pc.toNat = addr.toNat
    | .ret => ∃ x, s.slot? (s.sp - 1) = some x ∧ t.pc = x + 2
    | .seByte x kk => t.pc = if s.getV x = kk then s.pc + 4 else s.pc + 2
    | .sneByte x kk => t.pc = if s.getV x ≠ kk then s.pc + 4 else s.pc + 2
    | .seReg x y _ => t.pc = if s.getV x = s.getV y then s.pc + 4 else s.pc + 2
    | .sneReg x y _ => t.pc = if s.getV x ≠ s.getV y then s.pc + 4 else s.pc + 2
    | _ => t.pc = s.pc + 2

/-! ## Family 0x0, jump, call -/

/-- R100: CLS completes with all 2048 cells 0, whatever they held, and changes nothing else; so does every word of
family 0x0 under `as_built`. -/
def Obligations.ClsClearsTheDisplay : Prop :=
  ∀ (s : State) (addr : Addr),
    ∃ t, Sys2Proof.Machine.exec .cls s = .next t ∧ Sys2Proof.Machine.exec (.clsAsBuilt addr) s = .next t ∧
      (∀ col row, t.pixel col row = 0) ∧ OnlyDisplayChanges s t

/-- R101, R31: RET pops the top entry into pc (the cycle then adds 2), or raises StackUnderflow on an empty stack. -/
def Obligations.RetPopsThePc : Prop :=
  ∀ s : State,
    (s.sp ≠ 0 → ∃ t, Sys2Proof.Machine.exec .ret s = .next t ∧ s.slot? (s.sp - 1) = some t.pc ∧
      t.sp + 1 = s.sp ∧ (∀ j, t.slot? j = s.slot? j) ∧ OnlyPcAndStackChange s t) ∧
    (s.sp = 0 → ∃ t, Sys2Proof.Machine.exec .ret s = .next t ∧ HaltedWith .stackUnderflow s t)

/-- R103, R94: JP sets pc two below its target, modulo 2^16, so that the cycle lands exactly on it, for every target
0x000 to 0xFFF. -/
def Obligations.JpLandsOnItsTarget : Prop :=
  ∀ (s : State) (addr : Addr),
    ∃ t, Sys2Proof.Machine.exec (.jp addr) s = .next t ∧ t.pc.toNat = (addr.toNat + 0x10000 - 2) % 0x10000 ∧
      (t.pc + 2).toNat = addr.toNat ∧ OnlyPcChanges s t

/-- R104, R30: CALL pushes its own address and jumps as JP does, or raises StackOverflow at capacity. -/
def Obligations.CallPushesItsAddress : Prop :=
  ∀ (s : State) (addr : Addr),
    (s.sp < s.stackCap → ∃ t, Sys2Proof.Machine.exec (.call addr) s = .next t ∧
      t.slot? s.sp = some s.pc ∧ (∀ j, j ≠ s.sp → t.slot? j = s.slot? j) ∧ t.sp = s.sp + 1 ∧
      (t.pc + 2).toNat = addr.toNat ∧ OnlyPcAndStackChange s t) ∧
    (s.sp = s.stackCap → ∃ t, Sys2Proof.Machine.exec (.call addr) s = .next t ∧ HaltedWith .stackOverflow s t)

/-- SYS and UNIMPL_8 complete and change nothing: the spec's own decisions D2 and D3 for words the source says nothing
of (R102, R140; log 6, log 7). -/
def Obligations.UnlistedWordsChangeNothing : Prop :=
  ∀ (s : State) (addr : Addr) (x y : Reg) (z : Nibble),
    Sys2Proof.Machine.exec (.sys addr) s = .next s ∧ Sys2Proof.Machine.exec (.unimpl8 x y z) s = .next s

/-- R150: UNIMPL_A to UNIMPL_F complete and change nothing; the cycle of every word of families 0xA to 0xF then advances
pc by 2 and changes nothing else. -/
def Obligations.UnimplementedFamiliesChangeNothing : Prop :=
  (∀ (s : State) (addr : Addr) (x y : Reg) (z : Nibble) (kk : Byte),
    Sys2Proof.Machine.exec (.unimplA addr) s = .next s ∧ Sys2Proof.Machine.exec (.unimplB addr) s = .next s ∧
    Sys2Proof.Machine.exec (.unimplC x kk) s = .next s ∧ Sys2Proof.Machine.exec (.unimplD x y z) s = .next s ∧
    Sys2Proof.Machine.exec (.unimplE x y z) s = .next s ∧ Sys2Proof.Machine.exec (.unimplF x y z) s = .next s) ∧
  ∀ s : State, s.Running → s.Fetchable → 0xA000 ≤ s.wordAtPc.toNat → step s = .next { s with pc := s.pc + 2 }

/-! ## Skips, load and add immediate -/

/-- R110, R111: SE and SNE with an immediate add 2 to pc when the register equals, or differs from, the immediate, and
change nothing else. -/
def Obligations.SkipsOnImmediate : Prop :=
  ∀ (s : State) (x : Reg) (kk : Byte),
    Sys2Proof.Machine.exec (.seByte x kk) s =
      .next (if (s.getV x).toNat = kk.toNat then { s with pc := s.pc + 2 } else s) ∧
    Sys2Proof.Machine.exec (.sneByte x kk) s =
      .next (if (s.getV x).toNat = kk.toNat then s else { s with pc := s.pc + 2 })

/-- R112, R113: the same for two registers, for every z. -/
def Obligations.SkipsOnRegisters : Prop :=
  ∀ (s : State) (x y : Reg) (z : Nibble),
    Sys2Proof.Machine.exec (.seReg x y z) s =
      .next (if (s.getV x).toNat = (s.getV y).toNat then { s with pc := s.pc + 2 } else s) ∧
    Sys2Proof.Machine.exec (.sneReg x y z) s =
      .next (if (s.getV x).toNat = (s.getV y).toNat then s else { s with pc := s.pc + 2 })

/-- R120, R121: LD Vx, byte loads the immediate; ADD Vx, byte adds it modulo 2^8 with no flag: every other register, VF
too, keeps its value. -/
def Obligations.ImmediateLoadAndAdd : Prop :=
  ∀ (s : State) (x : Reg) (kk : Byte),
    (∃ t, Sys2Proof.Machine.exec (.ldByte x kk) s = .next t ∧ t.getV x = kk ∧
      (∀ r, r ≠ x → t.getV r = s.getV r) ∧ OnlyRegistersChange s t) ∧
    (∃ t, Sys2Proof.Machine.exec (.addByte x kk) s = .next t ∧
      (t.getV x).toNat = ((s.getV x).toNat + kk.toNat) % 256 ∧
      (∀ r, r ≠ x → t.getV r = s.getV r) ∧ OnlyRegistersChange s t)

/-! ## Family 0x8 -/

/-- R131 to R134: LD, OR, AND and XOR of registers write V[x] and no flag. -/
def Obligations.CopyAndLogic : Prop :=
  ∀ (s : State) (x y : Reg),
    (∃ t, Sys2Proof.Machine.exec (.ldReg x y) s = .next t ∧ t.getV x = s.getV y ∧
      (∀ r, r ≠ x → t.getV r = s.getV r) ∧ OnlyRegistersChange s t) ∧
    (∃ t, Sys2Proof.Machine.exec (.orReg x y) s = .next t ∧
      (∀ k : Nat, (t.getV x).getLsbD k = ((s.getV x).getLsbD k || (s.getV y).getLsbD k)) ∧
      (∀ r, r ≠ x → t.getV r = s.getV r) ∧ OnlyRegistersChange s t) ∧
    (∃ t, Sys2Proof.Machine.exec (.andReg x y) s = .next t ∧
      (∀ k : Nat, (t.getV x).getLsbD k = ((s.getV x).getLsbD k && (s.getV y).getLsbD k)) ∧
      (∀ r, r ≠ x → t.getV r = s.getV r) ∧ OnlyRegistersChange s t) ∧
    (∃ t, Sys2Proof.Machine.exec (.xorReg x y) s = .next t ∧
      (∀ k : Nat, (t.getV x).getLsbD k = ((s.getV x).getLsbD k ^^ (s.getV y).getLsbD k)) ∧
      (∀ r, r ≠ x → t.getV r = s.getV r) ∧ OnlyRegistersChange s t)

/-- R135: ADD Vx, Vy for every x and y: the sum of the old values, the carry in VF, and the result written last. -/
def Obligations.AddSetsCarry : Prop :=
  ∀ (s : State) (x y : Reg),
    ∃ t, Sys2Proof.Machine.exec (.addReg x y) s = .next t ∧
      (t.getV x).toNat = ((s.getV x).toNat + (s.getV y).toNat) % 256 ∧
      (x ≠ 0xF → (t.getV 0xF).toNat = if (s.getV x).toNat + (s.getV y).toNat > 255 then 1 else 0) ∧
      (∀ r, r ≠ x → r ≠ 0xF → t.getV r = s.getV r) ∧ OnlyRegistersChange s t

/-- R136: SUB Vx, Vy for every x and y: VF is 1 exactly when V[x] is strictly greater, and the difference is taken of
the registers as they read after that write (the order of R130, log 8). -/
def Obligations.SubSetsStrictFlag : Prop :=
  ∀ (s : State) (x y : Reg),
    let f := if (s.getV x).toNat > (s.getV y).toNat then 1 else 0
    let a := if x = 0xF then f else (s.getV x).toNat
    let b := if y = 0xF then f else (s.getV y).toNat
    ∃ t, Sys2Proof.Machine.exec (.subReg x y) s = .next t ∧
      (t.getV x).toNat = (a + 256 - b) % 256 ∧ (x ≠ 0xF → (t.getV 0xF).toNat = f) ∧
      (∀ r, r ≠ x → r ≠ 0xF → t.getV r = s.getV r) ∧ OnlyRegistersChange s t

/-- R138: SUBN Vx, Vy for every x and y: as SUB with the operands exchanged (the order of R130, log 8). -/
def Obligations.SubnSetsStrictFlag : Prop :=
  ∀ (s : State) (x y : Reg),
    let f := if (s.getV y).toNat > (s.getV x).toNat then 1 else 0
    let a := if x = 0xF then f else (s.getV x).toNat
    let b := if y = 0xF then f else (s.getV y).toNat
    ∃ t, Sys2Proof.Machine.exec (.subnReg x y) s = .next t ∧
      (t.getV x).toNat = (b + 256 - a) % 256 ∧ (x ≠ 0xF → (t.getV 0xF).toNat = f) ∧
      (∀ r, r ≠ x → r ≠ 0xF → t.getV r = s.getV r) ∧ OnlyRegistersChange s t

/-- R137: SHR Vx, Vy for every x and y: VF is bit 0 of V[y], and V[x] is half of V[y] as it reads after that write
(the order of R130, log 8). -/
def Obligations.ShrShiftsY : Prop :=
  ∀ (s : State) (x y : Reg),
    let f := (s.getV y).toNat % 2
    let b := if y = 0xF then f else (s.getV y).toNat
    ∃ t, Sys2Proof.Machine.exec (.shrReg x y) s = .next t ∧
      (t.getV x).toNat = b / 2 ∧ (x ≠ 0xF → (t.getV 0xF).toNat = f) ∧
      (∀ r, r ≠ x → r ≠ 0xF → t.getV r = s.getV r) ∧ OnlyRegistersChange s t

/-- R139: SHL Vx, Vy for every x and y: VF is bit 7 of V[y], and V[x] is twice V[y], modulo 2^8, as it reads after that
write (the order of R130, log 8). -/
def Obligations.ShlShiftsY : Prop :=
  ∀ (s : State) (x y : Reg),
    let f := (s.getV y).toNat / 128
    let b := if y = 0xF then f else (s.getV y).toNat
    ∃ t, Sys2Proof.Machine.exec (.shlReg x y) s = .next t ∧
      (t.getV x).toNat = (2 * b) % 256 ∧ (x ≠ 0xF → (t.getV 0xF).toNat = f) ∧
      (∀ r, r ≠ x → r ≠ 0xF → t.getV r = s.getV r) ∧ OnlyRegistersChange s t

/-! ## Rules over all instructions -/

/-- R22: only 8xy4, 8xy5, 8xy6, 8xy7 and 8xyE write a flag to VF as a side effect, and it is then 0 or 1; every other
instruction that does not name VF as its destination keeps it. -/
def Obligations.OnlyFiveInstructionsWriteAFlag : Prop :=
  ∀ (i : Instr) (s t : State), Sys2Proof.Machine.exec i s = .next t → i.dest ≠ some 0xF →
    (i.writesFlag = true → (t.getV 0xF).toNat = 0 ∨ (t.getV 0xF).toNat = 1) ∧
    (i.writesFlag = false → t.getV 0xF = s.getV 0xF)

/-- R21, which the spec derives: an instruction writes only the registers of its row of the table, and what it does depends on no register but
those it reads. -/
def Obligations.RegistersReadAndWritten : Prop :=
  (∀ (i : Instr) (s t : State) (r : Reg), Sys2Proof.Machine.exec i s = .next t → r ∉ i.writes →
    t.getV r = s.getV r) ∧
  ∀ (i : Instr) (s s' : State), s' = { s with v := s'.v } → (∀ r ∈ i.reads, s'.getV r = s.getV r) →
    ∃ t t', Sys2Proof.Machine.exec i s = .next t ∧ Sys2Proof.Machine.exec i s' = .next t' ∧
      t' = { t with v := t'.v } ∧ ∀ r ∈ i.writes, t'.getV r = t.getV r

/-- R152, which the spec derives: no step writes I, DT, ST or memory, nor a parameter, and the display is never written except to clear it;
the halted block included. -/
def Obligations.StepNeverWritesIndexTimersMemory : Prop :=
  ∀ s : State, ∃ t, step s = .next t ∧ t.i = s.i ∧ t.dt = s.dt ∧ t.st = s.st ∧
    (∀ a, t.readByte a = s.readByte a) ∧ t.mem = s.mem ∧ t.params = s.params ∧ t.stackCap = s.stackCap ∧
    ((∀ col row, t.pixel col row = s.pixel col row) ∨ ∀ col row, t.pixel col row = 0)

/-- R106, which the spec derives: under `as_built` no step returns: SP never decreases, StackUnderflow is never raised, and a CALL still
overflows at capacity and otherwise raises SP by one. -/
def Obligations.AsBuiltNeverReturns : Prop :=
  ∀ s t : State, s.params.zeroDispatch = .asBuilt → step s = .next t →
    s.instrAtPc ≠ .ret ∧ s.sp ≤ t.sp ∧ (t.cause = .stackUnderflow → s.cause = .stackUnderflow) ∧
    (∀ addr, s.Runs (.call addr) →
      (s.sp < s.stackCap → t.sp = s.sp + 1 ∧ t.Running) ∧
      (s.sp = s.stackCap → HaltedWith .stackOverflow s t))

/-! ## Invariants and whole runs -/

/-- The machine's invariant and the bounds on code addresses are each kept by every step. The
canonical form of memory is the model's own (log 12); the bounds are those of R101 and R114. -/
def Obligations.StepKeepsInvariants : Prop :=
  (∀ s t : State, s.Inv → step s = .next t → t.Inv) ∧
  ∀ s t : State, s.CodeBounds → step s = .next t → t.CodeBounds

/-- The invariant of the block with its interface is kept by every transaction. The load window is the model's
form of R46 and R183 (log 13). -/
def Obligations.TransactionsKeepInvariant : Prop :=
  ∀ (e e' : Session) (x : Transaction), e.Inv → e.apply x = .next e' → e'.Inv

/-- Two memories in canonical form that read alike at every address are the same list (the model's
own form, log 12). -/
def Obligations.CanonicalMemoryIsUnique : Prop :=
  ∀ (f : Font) (m m' : Memory), m.wf f → m'.wf f → (∀ a, a < 0x1000 → m.read f a = m'.read f a) → m = m'

/-- R27, R33, which the spec derives: in every run, of any transactions from a fresh block, DT and ST are 0 and every display cell is 0. -/
def Obligations.TimersAndDisplayStayZero : Prop :=
  ∀ (c : Config) (xs : List Transaction) (e : Session), Session.applyAll xs (Session.start c) = .next e →
    e.state.dt = 0 ∧ e.state.st = 0 ∧ ∀ col row, e.state.pixel col row = 0

/-- R65, which the spec derives: from the load to the next reset memory is the reset contents overlaid with the image at 0x200. -/
def Obligations.MemoryIsResetOverlaidWithImage : Prop :=
  ∀ (c : Config) (image : List Byte) (xs : List Transaction) (e : Session), image.length ≤ 0xE00 →
    (∀ x ∈ xs, x ≠ .reset) → Session.applyAll (.load image :: xs) (Session.start c) = .next e →
    (∀ (k : Nat) (h : k < image.length), e.state.readByte (0x200 + k) = image[k]) ∧
    ∀ a, a < 0x200 ∨ 0x200 + image.length ≤ a → e.state.readByte a = (State.resetWith c).readByte a

/-- R105, which the spec derives: a CALL whose callee runs, with any calls of its own matched by their returns, up to its RET resumes at the
CALL's address plus 2, with SP and every saved entry below it restored; one call beyond capacity overflows, and a
return on an empty stack underflows. -/
def Obligations.CallAndReturnLaw : Prop :=
  (∀ (s t u w : State) (addr : Addr), s.Runs (.call addr) → step s = .next t → t.Running → Balanced t u →
    u.Runs .ret → step u = .next w →
    w.Running ∧ w.pc = s.pc + 2 ∧ w.sp = s.sp ∧ ∀ j, j < s.sp → w.slot? j = s.slot? j) ∧
  (∀ (s : State) (addr : Addr), s.Runs (.call addr) → s.sp = s.stackCap →
    ∃ t, step s = .next t ∧ HaltedWith .stackOverflow s t) ∧
  ∀ s : State, s.Runs .ret → s.sp = 0 → ∃ t, step s = .next t ∧ HaltedWith .stackUnderflow s t

/-- R25 (derived by the spec), R29: a program cannot observe I, the timers, the display or the stack entries at index >= SP: two states that
differ only there step to two states that differ only there, with the same trace. -/
def Obligations.HiddenStateIsUnobservable : Prop :=
  ∀ s s' : State, Indistinct s s' →
    ∃ t t', step s = .next t ∧ step s' = .next t' ∧ Indistinct t t' ∧ s.trace = s'.trace

/-- R185, which the spec derives: from reset with nothing loaded, in either mode, the block runs 0x700 cycles that change nothing but pc,
reaches pc = 0x1000, and the next cycle raises ProgramCounterOutOfRange. -/
def Obligations.EmptyImageRun : Prop :=
  ∀ c : Config,
    (∀ k, k ≤ 0x700 → runSteps k (State.resetWith c) =
      .next { State.resetWith c with pc := BitVec.ofNat 16 (0x200 + 2 * k) }) ∧
    ∀ n, 0x700 < n → runSteps n (State.resetWith c) =
      .next { State.resetWith c with pc := 0x1000, halted := true, cause := .programCounterOutOfRange }
end

