-- ==== Sys2Proof/Laws/Decode.lean ====
section
/-! SUPPORT. The numbers behind words, fields and formats, and the fields of each format. -/

namespace Sys2Proof

/-- Concatenation as a number. -/
theorem toNat_append {m n : Nat} (a : BitVec m) (b : BitVec n) : (a ++ b).toNat = a.toNat * 2 ^ n + b.toNat := by
  rw [BitVec.toNat_append, ← Nat.shiftLeft_add_eq_or_of_lt b.isLt, Nat.shiftLeft_eq]

@[simp] theorem regBits_toNat (r : Reg) : (regBits r).toNat = r.val := rfl

@[simp] theorem regOf_regBits (r : Reg) : regOf (regBits r) = r := rfl

@[simp] theorem regBits_regOf (n : Nibble) : regBits (regOf n) = n := rfl

theorem regOf_val (n : Nibble) : (regOf n).val = n.toNat := rfl

/-! ## Words from bytes -/

theorem wordOfBytes_toNat (hi lo : Byte) : (wordOfBytes hi lo).toNat = hi.toNat * 256 + lo.toNat := toNat_append hi lo

theorem hiByte_toNat (w : Word) : (hiByte w).toNat = w.toNat / 256 := by
  have := w.isLt
  simp [hiByte, Nat.shiftRight_eq_div_pow]; omega

theorem loByte_toNat (w : Word) : (loByte w).toNat = w.toNat % 256 := by
  simp [loByte]

@[simp] theorem hiByte_wordOfBytes (hi lo : Byte) : hiByte (wordOfBytes hi lo) = hi := by
  apply BitVec.eq_of_toNat_eq
  rw [hiByte_toNat, wordOfBytes_toNat]
  omega

@[simp] theorem loByte_wordOfBytes (hi lo : Byte) : loByte (wordOfBytes hi lo) = lo := by
  apply BitVec.eq_of_toNat_eq
  rw [loByte_toNat, wordOfBytes_toNat]
  omega

/-- A word is its two bytes. -/
@[simp] theorem wordOfBytes_hiByte_loByte (w : Word) : wordOfBytes (hiByte w) (loByte w) = w := by
  apply BitVec.eq_of_toNat_eq
  rw [wordOfBytes_toNat, hiByte_toNat, loByte_toNat]
  omega

/-! ## The fields of a word as numbers (R71) -/

theorem family_toNat (w : Word) : (family w).toNat = w.toNat / 4096 := by
  have := w.isLt
  simp [family, Nat.shiftRight_eq_div_pow]; omega

theorem fieldX_val (w : Word) : (fieldX w).val = w.toNat / 256 % 16 := by
  simp [fieldX, regOf_val, Nat.shiftRight_eq_div_pow]

theorem fieldY_val (w : Word) : (fieldY w).val = w.toNat / 16 % 16 := by
  simp [fieldY, regOf_val, Nat.shiftRight_eq_div_pow]

theorem fieldZ_toNat (w : Word) : (fieldZ w).toNat = w.toNat % 16 := by simp [fieldZ]

theorem fieldAddr_toNat (w : Word) : (fieldAddr w).toNat = w.toNat % 4096 := by simp [fieldAddr]

theorem fieldKK_toNat (w : Word) : (fieldKK w).toNat = w.toNat % 256 := by simp [fieldKK]

/-! ## The formats as numbers (R72) -/

theorem formatA_toNat (f : Nibble) (addr : Addr) : (formatA f addr).toNat = f.toNat * 4096 + addr.toNat :=
  toNat_append f addr

theorem formatXK_toNat (f : Nibble) (x : Reg) (kk : Byte) :
    (formatXK f x kk).toNat = (f.toNat * 16 + x.val) * 256 + kk.toNat := by
  refine (toNat_append (f ++ regBits x) kk).trans (congrArg (fun n => n * 256 + kk.toNat) ?_)
  exact (toNat_append f (regBits x)).trans (congrArg (fun n => f.toNat * 16 + n) (regBits_toNat x))

theorem formatXYZ_toNat (f : Nibble) (x y : Reg) (z : Nibble) :
    (formatXYZ f x y z).toNat = ((f.toNat * 16 + x.val) * 16 + y.val) * 16 + z.toNat := by
  refine (toNat_append (f ++ regBits x ++ regBits y) z).trans (congrArg (fun n => n * 16 + z.toNat) ?_)
  refine (toNat_append (f ++ regBits x) (regBits y)).trans ?_
  rw [regBits_toNat]
  refine congrArg (fun n => n * 16 + y.val) ?_
  exact (toNat_append f (regBits x)).trans (congrArg (fun n => f.toNat * 16 + n) (regBits_toNat x))

/-! ## The fields of each format -/

@[simp] theorem family_formatA (f : Nibble) (addr : Addr) : family (formatA f addr) = f := by
  apply BitVec.eq_of_toNat_eq
  rw [family_toNat, formatA_toNat]
  omega

@[simp] theorem fieldAddr_formatA (f : Nibble) (addr : Addr) : fieldAddr (formatA f addr) = addr := by
  apply BitVec.eq_of_toNat_eq
  rw [fieldAddr_toNat, formatA_toNat]
  omega

@[simp] theorem family_formatXK (f : Nibble) (x : Reg) (kk : Byte) : family (formatXK f x kk) = f := by
  apply BitVec.eq_of_toNat_eq
  rw [family_toNat, formatXK_toNat]
  omega

@[simp] theorem fieldX_formatXK (f : Nibble) (x : Reg) (kk : Byte) : fieldX (formatXK f x kk) = x := by
  apply Fin.ext
  rw [fieldX_val, formatXK_toNat]
  omega

@[simp] theorem fieldKK_formatXK (f : Nibble) (x : Reg) (kk : Byte) : fieldKK (formatXK f x kk) = kk := by
  apply BitVec.eq_of_toNat_eq
  rw [fieldKK_toNat, formatXK_toNat]
  omega

@[simp] theorem family_formatXYZ (f : Nibble) (x y : Reg) (z : Nibble) : family (formatXYZ f x y z) = f := by
  apply BitVec.eq_of_toNat_eq
  rw [family_toNat, formatXYZ_toNat]
  omega

@[simp] theorem fieldX_formatXYZ (f : Nibble) (x y : Reg) (z : Nibble) : fieldX (formatXYZ f x y z) = x := by
  apply Fin.ext
  rw [fieldX_val, formatXYZ_toNat]
  omega

@[simp] theorem fieldY_formatXYZ (f : Nibble) (x y : Reg) (z : Nibble) : fieldY (formatXYZ f x y z) = y := by
  apply Fin.ext
  rw [fieldY_val, formatXYZ_toNat]
  omega

@[simp] theorem fieldZ_formatXYZ (f : Nibble) (x y : Reg) (z : Nibble) : fieldZ (formatXYZ f x y z) = z := by
  apply BitVec.eq_of_toNat_eq
  rw [fieldZ_toNat, formatXYZ_toNat]
  omega

/-! ## A word from its fields -/

theorem formatA_fields (w : Word) : formatA (family w) (fieldAddr w) = w := by
  apply BitVec.eq_of_toNat_eq
  rw [formatA_toNat, family_toNat, fieldAddr_toNat]
  omega

theorem formatXK_fields (w : Word) : formatXK (family w) (fieldX w) (fieldKK w) = w := by
  apply BitVec.eq_of_toNat_eq
  rw [formatXK_toNat, family_toNat, fieldX_val, fieldKK_toNat]
  omega

theorem formatXYZ_fields (w : Word) : formatXYZ (family w) (fieldX w) (fieldY w) (fieldZ w) = w := by
  apply BitVec.eq_of_toNat_eq
  rw [formatXYZ_toNat, family_toNat, fieldX_val, fieldY_val, fieldZ_toNat]
  omega

/-! ## What the decoder can answer, said once -/

/-- A nibble is one of its 16 values. -/
theorem nibble_cases (n : Nibble) :
    n = 0x0 ∨ n = 0x1 ∨ n = 0x2 ∨ n = 0x3 ∨ n = 0x4 ∨ n = 0x5 ∨ n = 0x6 ∨ n = 0x7 ∨
    n = 0x8 ∨ n = 0x9 ∨ n = 0xA ∨ n = 0xB ∨ n = 0xC ∨ n = 0xD ∨ n = 0xE ∨ n = 0xF := by
  revert n
  decide

/-- The decoder by family (R74). -/
theorem decode_cases (m : ZeroDispatch) (w : Word) :
    (family w = 0x0 ∧ decode m w = decodeZero m (fieldAddr w)) ∨
    (family w = 0x1 ∧ decode m w = .jp (fieldAddr w)) ∨
    (family w = 0x2 ∧ decode m w = .call (fieldAddr w)) ∨
    (family w = 0x3 ∧ decode m w = .seByte (fieldX w) (fieldKK w)) ∨
    (family w = 0x4 ∧ decode m w = .sneByte (fieldX w) (fieldKK w)) ∨
    (family w = 0x5 ∧ decode m w = .seReg (fieldX w) (fieldY w) (fieldZ w)) ∨
    (family w = 0x6 ∧ decode m w = .ldByte (fieldX w) (fieldKK w)) ∨
    (family w = 0x7 ∧ decode m w = .addByte (fieldX w) (fieldKK w)) ∨
    (family w = 0x8 ∧ decode m w = decodeEight (fieldX w) (fieldY w) (fieldZ w)) ∨
    (family w = 0x9 ∧ decode m w = .sneReg (fieldX w) (fieldY w) (fieldZ w)) ∨
    (family w = 0xA ∧ decode m w = .unimplA (fieldAddr w)) ∨
    (family w = 0xB ∧ decode m w = .unimplB (fieldAddr w)) ∨
    (family w = 0xC ∧ decode m w = .unimplC (fieldX w) (fieldKK w)) ∨
    (family w = 0xD ∧ decode m w = .unimplD (fieldX w) (fieldY w) (fieldZ w)) ∨
    (family w = 0xE ∧ decode m w = .unimplE (fieldX w) (fieldY w) (fieldZ w)) ∨
    (family w = 0xF ∧ decode m w = .unimplF (fieldX w) (fieldY w) (fieldZ w)) := by
  unfold decode
  rcases nibble_cases (family w) with h | h | h | h | h | h | h | h | h | h | h | h | h | h | h | h <;> rw [h] <;> simp

/-- Family 0x8 by selector (R76): a row of priority 0 for 0x0 to 0x7 and 0xE, and UNIMPL_8 for the rest. -/
theorem decodeEight_cases (x y : Reg) (z : Nibble) :
    (z = 0x0 ∧ decodeEight x y z = .ldReg x y) ∨
    (z = 0x1 ∧ decodeEight x y z = .orReg x y) ∨
    (z = 0x2 ∧ decodeEight x y z = .andReg x y) ∨
    (z = 0x3 ∧ decodeEight x y z = .xorReg x y) ∨
    (z = 0x4 ∧ decodeEight x y z = .addReg x y) ∨
    (z = 0x5 ∧ decodeEight x y z = .subReg x y) ∨
    (z = 0x6 ∧ decodeEight x y z = .shrReg x y) ∨
    (z = 0x7 ∧ decodeEight x y z = .subnReg x y) ∨
    (z = 0xE ∧ decodeEight x y z = .shlReg x y) ∨
    (isAluSelector z = false ∧ decodeEight x y z = .unimpl8 x y z) := by
  rcases nibble_cases z with h | h | h | h | h | h | h | h | h | h | h | h | h | h | h | h <;> subst h <;> simp [decodeEight, isAluSelector]

/-! ## Addresses on pc -/

@[simp] theorem zext16_toNat (a : Addr) : (zext16 a).toNat = a.toNat := by
  have := a.isLt
  simp [zext16, BitVec.toNat_setWidth]; omega

end Sys2Proof
end

