-- ==== Sys2Proof/Laws/Memory.lean ====
section
/-! SUPPORT. The laws of memory: reading after writing, and that every operation keeps the canonical form. -/

namespace Sys2Proof.Machine

/-! ## Lookup -/

@[simp] theorem Memory.find?_nil (a : Nat) : Memory.find? [] a = none := rfl

theorem Memory.find?_cons (k : Nat) (b : Byte) (m : Memory) (a : Nat) :
    Memory.find? ((k, b) :: m) a = if k = a then some b else m.find? a := rfl

/-- An address below every listed one is not listed. -/
theorem Memory.find?_eq_none_of_lt {m : Memory} {a : Nat} (h : ∀ c ∈ m, a < c.1) : m.find? a = none := by
  induction m with
  | nil => rfl
  | cons c m ih =>
    have hc : a < c.1 := h c (by simp)
    rw [show c = (c.1, c.2) from rfl, Memory.find?_cons, if_neg (by omega)]
    exact ih fun d hd => h d (by simp [hd])

theorem Memory.find?_put_same (m : Memory) (a : Nat) (b : Byte) : (m.put a b).find? a = some b := by
  induction m with
  | nil => simp [Memory.put, Memory.find?]
  | cons c m ih =>
    unfold Memory.put
    split
    · simp [Memory.find?]
    · split
      · simp [Memory.find?]
      · next h1 h2 => simp [Memory.find?, Ne.symm h2, ih]

theorem Memory.find?_put_ne (m : Memory) {a n : Nat} (b : Byte) (h : n ≠ a) : (m.put a b).find? n = m.find? n := by
  induction m with
  | nil => simp [Memory.put, Memory.find?, h.symm]
  | cons c m ih =>
    unfold Memory.put
    split
    · simp [Memory.find?, h.symm]
    · split
      · next h1 h2 => subst h2; simp [Memory.find?, h.symm]
      · simp [Memory.find?, ih]

theorem Memory.find?_drop_ne (m : Memory) {a n : Nat} (h : n ≠ a) : (m.drop a).find? n = m.find? n := by
  induction m with
  | nil => rfl
  | cons c m ih =>
    unfold Memory.drop
    split
    · next h1 => subst h1; simp [Memory.find?, h.symm]
    · simp [Memory.find?, ih]

theorem Memory.find?_drop_same {m : Memory} (a : Nat) (h : m.Pairwise (fun c d => c.1 < d.1)) :
    (m.drop a).find? a = none := by
  induction m with
  | nil => rfl
  | cons c m ih =>
    rw [List.pairwise_cons] at h
    unfold Memory.drop
    split
    · next h1 => subst h1; exact Memory.find?_eq_none_of_lt h.1
    · next h1 => simp [Memory.find?, h1, ih h.2]

/-! ## The canonical form -/

theorem Memory.wf_nil (f : Font) : Memory.wf f [] := by simp [Memory.wf]

/-- Every cell of `put` is the new one or an old one. -/
theorem Memory.mem_put {m : Memory} {a : Nat} {b : Byte} {c : Host.Cell} (h : c ∈ m.put a b) : c = (a, b) ∨ c ∈ m := by
  induction m with
  | nil => simpa [Memory.put] using h
  | cons d m ih =>
    unfold Memory.put at h
    split at h
    · simpa using h
    · split at h
      · rcases List.mem_cons.1 h with h | h
        · exact .inl h
        · exact .inr (by simp [h])
      · rcases List.mem_cons.1 h with h | h
        · exact .inr (by simp [h])
        · exact (ih h).imp_right fun h => by simp [h]

/-- Every cell of `drop` is an old one. -/
theorem Memory.mem_drop {m : Memory} {a : Nat} {c : Host.Cell} (h : c ∈ m.drop a) : c ∈ m := by
  induction m with
  | nil => exact h
  | cons d m ih =>
    unfold Memory.drop at h
    split at h
    · simp [h]
    · rcases List.mem_cons.1 h with h | h
      · simp [h]
      · simp [ih h]

theorem Memory.pairwise_put {m : Memory} (a : Nat) (b : Byte) (h : m.Pairwise (fun c d => c.1 < d.1)) :
    (m.put a b).Pairwise (fun c d => c.1 < d.1) := by
  induction m with
  | nil => simp [Memory.put]
  | cons d m ih =>
    rw [List.pairwise_cons] at h
    unfold Memory.put
    split
    · next h1 =>
      refine List.pairwise_cons.2 ⟨fun c hc => ?_, List.pairwise_cons.2 h⟩
      rcases List.mem_cons.1 hc with hc | hc
      · subst hc; exact h1
      · have := h.1 c hc; simp only at this ⊢; omega
    · split
      · next h1 h2 => subst h2; exact List.pairwise_cons.2 h
      · next h1 h2 =>
        refine List.pairwise_cons.2 ⟨fun c hc => ?_, ih h.2⟩
        rcases Memory.mem_put hc with hc | hc
        · subst hc; simp only; omega
        · exact h.1 c hc

theorem Memory.pairwise_drop {m : Memory} (a : Nat) (h : m.Pairwise (fun c d => c.1 < d.1)) :
    (m.drop a).Pairwise (fun c d => c.1 < d.1) := by
  induction m with
  | nil => exact h
  | cons d m ih =>
    rw [List.pairwise_cons] at h
    unfold Memory.drop
    split
    · exact h.2
    · exact List.pairwise_cons.2 ⟨fun c hc => h.1 c (Memory.mem_drop hc), ih h.2⟩

/-- A write keeps the canonical form. -/
theorem Memory.wf_write {f : Font} {m : Memory} (a : Nat) (b : Byte) (h : m.wf f) : (m.write f a b).wf f := by
  unfold Memory.write
  split
  · next ha =>
    split
    · exact ⟨Memory.pairwise_drop a h.1, fun c hc => h.2 c (Memory.mem_drop hc)⟩
    · next hb =>
      refine ⟨Memory.pairwise_put a b h.1, fun c hc => ?_⟩
      rcases Memory.mem_put hc with hc | hc
      · subst hc; exact ⟨ha, hb⟩
      · exact h.2 c hc
  · exact h

/-! ## Reading after writing -/

/-- A read after a write to the same address of memory gives the byte written. -/
theorem Memory.read_write_same {f : Font} {m : Memory} {a : Nat} (b : Byte) (h : m.wf f) (ha : a < memSize) :
    (m.write f a b).read f a = b := by
  unfold Memory.write Memory.read
  rw [if_pos ha]
  split
  · next hb => rw [Memory.find?_drop_same a h.1, hb]; rfl
  · rw [Memory.find?_put_same]; rfl

/-- A write leaves every other address alone. -/
theorem Memory.read_write_ne {f : Font} (m : Memory) {a n : Nat} (b : Byte) (h : n ≠ a) :
    (m.write f a b).read f n = m.read f n := by
  unfold Memory.write Memory.read
  split
  · split
    · rw [Memory.find?_drop_ne m h]
    · rw [Memory.find?_put_ne m b h]
  · rfl

end Sys2Proof.Machine
end

