-- ==== Sys2Proof/Laws/State.lean ====
section
/-! SUPPORT. One lemma per field per update of State, each true by rfl, and the accessors' views of them. -/

namespace Sys2Proof.Machine

/-! ## State.setV -/

@[simp] theorem State.setV_v (s : State) (x : Reg) (b : Byte) : (s.setV x b).v = s.v.set x.val b := rfl
@[simp] theorem State.setV_i (s : State) (x : Reg) (b : Byte) : (s.setV x b).i = s.i := rfl
@[simp] theorem State.setV_pc (s : State) (x : Reg) (b : Byte) : (s.setV x b).pc = s.pc := rfl
@[simp] theorem State.setV_stack (s : State) (x : Reg) (b : Byte) : (s.setV x b).stack = s.stack := rfl
@[simp] theorem State.setV_dt (s : State) (x : Reg) (b : Byte) : (s.setV x b).dt = s.dt := rfl
@[simp] theorem State.setV_st (s : State) (x : Reg) (b : Byte) : (s.setV x b).st = s.st := rfl
@[simp] theorem State.setV_disp (s : State) (x : Reg) (b : Byte) : (s.setV x b).disp = s.disp := rfl
@[simp] theorem State.setV_mem (s : State) (x : Reg) (b : Byte) : (s.setV x b).mem = s.mem := rfl
@[simp] theorem State.setV_halted (s : State) (x : Reg) (b : Byte) : (s.setV x b).halted = s.halted := rfl
@[simp] theorem State.setV_cause (s : State) (x : Reg) (b : Byte) : (s.setV x b).cause = s.cause := rfl
@[simp] theorem State.setV_params (s : State) (x : Reg) (b : Byte) : (s.setV x b).params = s.params := rfl
@[simp] theorem State.setV_sp (s : State) (x : Reg) (b : Byte) : (s.setV x b).sp = s.sp := rfl
@[simp] theorem State.setV_stackCap (s : State) (x : Reg) (b : Byte) : (s.setV x b).stackCap = s.stackCap := rfl
@[simp] theorem State.setV_slot (s : State) (x : Reg) (b : Byte) (j : Nat) : (s.setV x b).slot? j = s.slot? j := rfl
@[simp] theorem State.setV_pixel (s : State) (x : Reg) (b : Byte) (col : Fin displayW) (row : Fin displayH) : (s.setV x b).pixel col row = s.pixel col row := rfl
@[simp] theorem State.setV_readByte (s : State) (x : Reg) (b : Byte) (n : Nat) : (s.setV x b).readByte n = s.readByte n := rfl

/-! ## State.setPc -/

@[simp] theorem State.setPc_v (s : State) (p : Word) : (s.setPc p).v = s.v := rfl
@[simp] theorem State.setPc_i (s : State) (p : Word) : (s.setPc p).i = s.i := rfl
@[simp] theorem State.setPc_pc (s : State) (p : Word) : (s.setPc p).pc = p := rfl
@[simp] theorem State.setPc_stack (s : State) (p : Word) : (s.setPc p).stack = s.stack := rfl
@[simp] theorem State.setPc_dt (s : State) (p : Word) : (s.setPc p).dt = s.dt := rfl
@[simp] theorem State.setPc_st (s : State) (p : Word) : (s.setPc p).st = s.st := rfl
@[simp] theorem State.setPc_disp (s : State) (p : Word) : (s.setPc p).disp = s.disp := rfl
@[simp] theorem State.setPc_mem (s : State) (p : Word) : (s.setPc p).mem = s.mem := rfl
@[simp] theorem State.setPc_halted (s : State) (p : Word) : (s.setPc p).halted = s.halted := rfl
@[simp] theorem State.setPc_cause (s : State) (p : Word) : (s.setPc p).cause = s.cause := rfl
@[simp] theorem State.setPc_params (s : State) (p : Word) : (s.setPc p).params = s.params := rfl
@[simp] theorem State.setPc_getV (s : State) (p : Word) (r : Reg) : (s.setPc p).getV r = s.getV r := rfl
@[simp] theorem State.setPc_sp (s : State) (p : Word) : (s.setPc p).sp = s.sp := rfl
@[simp] theorem State.setPc_stackCap (s : State) (p : Word) : (s.setPc p).stackCap = s.stackCap := rfl
@[simp] theorem State.setPc_slot (s : State) (p : Word) (j : Nat) : (s.setPc p).slot? j = s.slot? j := rfl
@[simp] theorem State.setPc_pixel (s : State) (p : Word) (col : Fin displayW) (row : Fin displayH) : (s.setPc p).pixel col row = s.pixel col row := rfl
@[simp] theorem State.setPc_readByte (s : State) (p : Word) (n : Nat) : (s.setPc p).readByte n = s.readByte n := rfl

/-! ## State.advance -/

@[simp] theorem State.advance_v (s : State) : (s.advance).v = s.v := rfl
@[simp] theorem State.advance_i (s : State) : (s.advance).i = s.i := rfl
@[simp] theorem State.advance_pc (s : State) : (s.advance).pc = s.pc + 2 := rfl
@[simp] theorem State.advance_stack (s : State) : (s.advance).stack = s.stack := rfl
@[simp] theorem State.advance_dt (s : State) : (s.advance).dt = s.dt := rfl
@[simp] theorem State.advance_st (s : State) : (s.advance).st = s.st := rfl
@[simp] theorem State.advance_disp (s : State) : (s.advance).disp = s.disp := rfl
@[simp] theorem State.advance_mem (s : State) : (s.advance).mem = s.mem := rfl
@[simp] theorem State.advance_halted (s : State) : (s.advance).halted = s.halted := rfl
@[simp] theorem State.advance_cause (s : State) : (s.advance).cause = s.cause := rfl
@[simp] theorem State.advance_params (s : State) : (s.advance).params = s.params := rfl
@[simp] theorem State.advance_getV (s : State) (r : Reg) : (s.advance).getV r = s.getV r := rfl
@[simp] theorem State.advance_sp (s : State) : (s.advance).sp = s.sp := rfl
@[simp] theorem State.advance_stackCap (s : State) : (s.advance).stackCap = s.stackCap := rfl
@[simp] theorem State.advance_slot (s : State) (j : Nat) : (s.advance).slot? j = s.slot? j := rfl
@[simp] theorem State.advance_pixel (s : State) (col : Fin displayW) (row : Fin displayH) : (s.advance).pixel col row = s.pixel col row := rfl
@[simp] theorem State.advance_readByte (s : State) (n : Nat) : (s.advance).readByte n = s.readByte n := rfl

/-! ## State.halt -/

@[simp] theorem State.halt_v (s : State) (c : Cause) : (s.halt c).v = s.v := rfl
@[simp] theorem State.halt_i (s : State) (c : Cause) : (s.halt c).i = s.i := rfl
@[simp] theorem State.halt_pc (s : State) (c : Cause) : (s.halt c).pc = s.pc := rfl
@[simp] theorem State.halt_stack (s : State) (c : Cause) : (s.halt c).stack = s.stack := rfl
@[simp] theorem State.halt_dt (s : State) (c : Cause) : (s.halt c).dt = s.dt := rfl
@[simp] theorem State.halt_st (s : State) (c : Cause) : (s.halt c).st = s.st := rfl
@[simp] theorem State.halt_disp (s : State) (c : Cause) : (s.halt c).disp = s.disp := rfl
@[simp] theorem State.halt_mem (s : State) (c : Cause) : (s.halt c).mem = s.mem := rfl
@[simp] theorem State.halt_halted (s : State) (c : Cause) : (s.halt c).halted = true := rfl
@[simp] theorem State.halt_cause (s : State) (c : Cause) : (s.halt c).cause = c := rfl
@[simp] theorem State.halt_params (s : State) (c : Cause) : (s.halt c).params = s.params := rfl
@[simp] theorem State.halt_getV (s : State) (c : Cause) (r : Reg) : (s.halt c).getV r = s.getV r := rfl
@[simp] theorem State.halt_sp (s : State) (c : Cause) : (s.halt c).sp = s.sp := rfl
@[simp] theorem State.halt_stackCap (s : State) (c : Cause) : (s.halt c).stackCap = s.stackCap := rfl
@[simp] theorem State.halt_slot (s : State) (c : Cause) (j : Nat) : (s.halt c).slot? j = s.slot? j := rfl
@[simp] theorem State.halt_pixel (s : State) (c : Cause) (col : Fin displayW) (row : Fin displayH) : (s.halt c).pixel col row = s.pixel col row := rfl
@[simp] theorem State.halt_readByte (s : State) (c : Cause) (n : Nat) : (s.halt c).readByte n = s.readByte n := rfl

/-! ## State.clearDisplay -/

@[simp] theorem State.clearDisplay_v (s : State) : (s.clearDisplay).v = s.v := rfl
@[simp] theorem State.clearDisplay_i (s : State) : (s.clearDisplay).i = s.i := rfl
@[simp] theorem State.clearDisplay_pc (s : State) : (s.clearDisplay).pc = s.pc := rfl
@[simp] theorem State.clearDisplay_stack (s : State) : (s.clearDisplay).stack = s.stack := rfl
@[simp] theorem State.clearDisplay_dt (s : State) : (s.clearDisplay).dt = s.dt := rfl
@[simp] theorem State.clearDisplay_st (s : State) : (s.clearDisplay).st = s.st := rfl
@[simp] theorem State.clearDisplay_disp (s : State) : (s.clearDisplay).disp = Display.clear := rfl
@[simp] theorem State.clearDisplay_mem (s : State) : (s.clearDisplay).mem = s.mem := rfl
@[simp] theorem State.clearDisplay_halted (s : State) : (s.clearDisplay).halted = s.halted := rfl
@[simp] theorem State.clearDisplay_cause (s : State) : (s.clearDisplay).cause = s.cause := rfl
@[simp] theorem State.clearDisplay_params (s : State) : (s.clearDisplay).params = s.params := rfl
@[simp] theorem State.clearDisplay_getV (s : State) (r : Reg) : (s.clearDisplay).getV r = s.getV r := rfl
@[simp] theorem State.clearDisplay_sp (s : State) : (s.clearDisplay).sp = s.sp := rfl
@[simp] theorem State.clearDisplay_stackCap (s : State) : (s.clearDisplay).stackCap = s.stackCap := rfl
@[simp] theorem State.clearDisplay_slot (s : State) (j : Nat) : (s.clearDisplay).slot? j = s.slot? j := rfl
@[simp] theorem State.clearDisplay_readByte (s : State) (n : Nat) : (s.clearDisplay).readByte n = s.readByte n := rfl

/-! ## State.writeByte -/

@[simp] theorem State.writeByte_v (s : State) (a : Nat) (b : Byte) : (s.writeByte a b).v = s.v := rfl
@[simp] theorem State.writeByte_i (s : State) (a : Nat) (b : Byte) : (s.writeByte a b).i = s.i := rfl
@[simp] theorem State.writeByte_pc (s : State) (a : Nat) (b : Byte) : (s.writeByte a b).pc = s.pc := rfl
@[simp] theorem State.writeByte_stack (s : State) (a : Nat) (b : Byte) : (s.writeByte a b).stack = s.stack := rfl
@[simp] theorem State.writeByte_dt (s : State) (a : Nat) (b : Byte) : (s.writeByte a b).dt = s.dt := rfl
@[simp] theorem State.writeByte_st (s : State) (a : Nat) (b : Byte) : (s.writeByte a b).st = s.st := rfl
@[simp] theorem State.writeByte_disp (s : State) (a : Nat) (b : Byte) : (s.writeByte a b).disp = s.disp := rfl
@[simp] theorem State.writeByte_mem (s : State) (a : Nat) (b : Byte) : (s.writeByte a b).mem = s.mem.write s.params.font a b := rfl
@[simp] theorem State.writeByte_halted (s : State) (a : Nat) (b : Byte) : (s.writeByte a b).halted = s.halted := rfl
@[simp] theorem State.writeByte_cause (s : State) (a : Nat) (b : Byte) : (s.writeByte a b).cause = s.cause := rfl
@[simp] theorem State.writeByte_params (s : State) (a : Nat) (b : Byte) : (s.writeByte a b).params = s.params := rfl
@[simp] theorem State.writeByte_getV (s : State) (a : Nat) (b : Byte) (r : Reg) : (s.writeByte a b).getV r = s.getV r := rfl
@[simp] theorem State.writeByte_sp (s : State) (a : Nat) (b : Byte) : (s.writeByte a b).sp = s.sp := rfl
@[simp] theorem State.writeByte_stackCap (s : State) (a : Nat) (b : Byte) : (s.writeByte a b).stackCap = s.stackCap := rfl
@[simp] theorem State.writeByte_slot (s : State) (a : Nat) (b : Byte) (j : Nat) : (s.writeByte a b).slot? j = s.slot? j := rfl
@[simp] theorem State.writeByte_pixel (s : State) (a : Nat) (b : Byte) (col : Fin displayW) (row : Fin displayH) : (s.writeByte a b).pixel col row = s.pixel col row := rfl

/-! ## Replacing the call stack, the registers -/

@[simp] theorem State.with_stack_getV (s : State) (k : CallStack) (r : Reg) : State.getV { s with stack := k } r = s.getV r := rfl
@[simp] theorem State.with_stack_pixel (s : State) (k : CallStack) (col : Fin displayW) (row : Fin displayH) : State.pixel { s with stack := k } col row = s.pixel col row := rfl
@[simp] theorem State.with_stack_readByte (s : State) (k : CallStack) (n : Nat) : State.readByte { s with stack := k } n = s.readByte n := rfl
@[simp] theorem State.with_v_sp (s : State) (k : Vector Byte numV) : State.sp { s with v := k } = s.sp := rfl
@[simp] theorem State.with_v_stackCap (s : State) (k : Vector Byte numV) : State.stackCap { s with v := k } = s.stackCap := rfl
@[simp] theorem State.with_v_slot (s : State) (k : Vector Byte numV) (j : Nat) : State.slot? { s with v := k } j = s.slot? j := rfl
@[simp] theorem State.with_v_pixel (s : State) (k : Vector Byte numV) (col : Fin displayW) (row : Fin displayH) : State.pixel { s with v := k } col row = s.pixel col row := rfl
@[simp] theorem State.with_v_readByte (s : State) (k : Vector Byte numV) (n : Nat) : State.readByte { s with v := k } n = s.readByte n := rfl

/-! ## Reset -/

@[simp] theorem State.resetWith_v (c : Config) : (State.resetWith c).v = Vector.replicate numV 0 := rfl
@[simp] theorem State.resetWith_i (c : Config) : (State.resetWith c).i = 0 := rfl
@[simp] theorem State.resetWith_pc (c : Config) : (State.resetWith c).pc = 0x200 := rfl
@[simp] theorem State.resetWith_stack (c : Config) : (State.resetWith c).stack = CallStack.empty c.stackCap := rfl
@[simp] theorem State.resetWith_dt (c : Config) : (State.resetWith c).dt = 0 := rfl
@[simp] theorem State.resetWith_st (c : Config) : (State.resetWith c).st = 0 := rfl
@[simp] theorem State.resetWith_disp (c : Config) : (State.resetWith c).disp = Display.clear := rfl
@[simp] theorem State.resetWith_mem (c : Config) : (State.resetWith c).mem = [] := rfl
@[simp] theorem State.resetWith_halted (c : Config) : (State.resetWith c).halted = false := rfl
@[simp] theorem State.resetWith_cause (c : Config) : (State.resetWith c).cause = Cause.none := rfl
@[simp] theorem State.resetWith_params (c : Config) : (State.resetWith c).params = c.params := rfl

end Sys2Proof.Machine
end

