-- ==== Sys2Proof/Laws/Ops.lean ====
section
/-! SUPPORT. One lemma per shared operation, saying everything it can do: registers, stack, memory. -/

namespace Sys2Proof.Machine

/-! ## Registers -/

theorem State.getV_setV_same (s : State) (x : Reg) (b : Byte) : (s.setV x b).getV x = b := by
  simp [State.getV, State.setV]

theorem State.getV_setV_ne (s : State) {x r : Reg} (b : Byte) (h : r ≠ x) : (s.setV x b).getV r = s.getV r := by
  have : x.val ≠ r.val := fun e => h (Fin.ext e.symm)
  simp [State.getV, State.setV, Vector.getElem_set_ne, this]

/-- Reading a register after writing one. -/
theorem State.getV_setV (s : State) (x r : Reg) (b : Byte) :
    (s.setV x b).getV r = if r = x then b else s.getV r := by
  split
  · next h => subst h; exact s.getV_setV_same r b
  · next h => exact s.getV_setV_ne b h

/-- A register file is what its 16 registers read as. -/
theorem State.v_ext {s t : State} (h : ∀ r, s.getV r = t.getV r) : s.v = t.v := by
  apply Vector.ext
  intro k hk
  exact h ⟨k, hk⟩

/-! ## Operands and the shared shapes of a meaning -/

@[simp] theorem regOperand_eq (s : State) (x : Reg) : regOperand s x = s.getV x := rfl

@[simp] theorem immOperand_eq (kk : Byte) : immOperand kk = kk := rfl

/-- A skip leaves everything but pc. -/
theorem skipIf_eq (c : Bool) (s : State) :
    skipIf c s = .next { s with pc := if c then s.pc + 2 else s.pc } := by
  cases c <;> rfl

/-- A flag-writing operation leaves everything but registers; the destination ends as the result of the operands read
after the flag write, VF (when it is not the destination) as the flag of the old operands, the rest as before. -/
theorem flagThenResult_cases (flag result : Byte → Byte → Byte) (x y : Reg) (s : State) :
    ∃ t, flagThenResult flag result x y s = .next t ∧ t = { s with v := t.v } ∧
      t.getV x = result (if x = vf then flag (s.getV x) (s.getV y) else s.getV x)
        (if y = vf then flag (s.getV x) (s.getV y) else s.getV y) ∧
      (x ≠ vf → t.getV vf = flag (s.getV x) (s.getV y)) ∧
      ∀ r, r ≠ x → r ≠ vf → t.getV r = s.getV r := by
  refine ⟨_, rfl, rfl, ?_, fun h => ?_, fun r h1 h2 => ?_⟩
  · simp only [State.getV_setV, if_true, regOperand_eq]
  · simp only [State.getV_setV, if_neg h.symm, if_true, regOperand_eq]
  · simp only [State.getV_setV, if_neg h1, if_neg h2]

/-! ## The call stack -/

/-- Push either overflows, at capacity, or stores the value in slot SP, raises SP by one and leaves every other slot. -/
theorem CallStack.push_cases (k : CallStack) (x : Word) :
    (k.sp.val = k.cap ∧ k.push x = .error .stackOverflow) ∨
    (k.sp.val < k.cap ∧ ∃ k' : CallStack, k.push x = .ok k' ∧ k'.cap = k.cap ∧ k'.sp.val = k.sp.val + 1 ∧
      k'.slots[k.sp.val]? = some x ∧ ∀ j : Nat, j ≠ k.sp.val → k'.slots[j]? = k.slots[j]?) := by
  unfold CallStack.push
  split
  · next h =>
    refine .inr ⟨h, _, rfl, rfl, rfl, ?_, fun j hj => ?_⟩
    · simp [h]
    · simp [Ne.symm hj]
  · next h => exact .inl ⟨by have := k.sp.isLt; omega, rfl⟩

/-- Pop either underflows, on an empty stack, or answers the entry below SP, lowers SP by one and leaves every slot. -/
theorem CallStack.pop_cases (k : CallStack) :
    (k.sp.val = 0 ∧ k.pop = .error .stackUnderflow) ∨
    (k.sp.val ≠ 0 ∧ ∃ (x : Word) (k' : CallStack), k.pop = .ok (x, k') ∧ k'.cap = k.cap ∧ k'.sp.val = k.sp.val - 1 ∧
      k.slots[k.sp.val - 1]? = some x ∧ ∀ j : Nat, k'.slots[j]? = k.slots[j]?) := by
  unfold CallStack.pop
  split
  · next h => exact .inl ⟨h, rfl⟩
  · next h =>
    have := k.sp.isLt
    exact .inr ⟨h, _, _, rfl, rfl, rfl, by rw [Vector.getElem?_eq_getElem], fun _ => rfl⟩

/-- SP never exceeds STACK_CAP: no state has it otherwise. -/
theorem State.sp_le_stackCap (s : State) : s.sp ≤ s.stackCap := Nat.lt_succ_iff.mp s.stack.sp.isLt

/-- Every index below STACK_CAP has a slot. -/
theorem State.slot?_isSome (s : State) {j : Nat} (h : j < s.stackCap) : ∃ x, s.slot? j = some x :=
  ⟨s.stack.slots[j], Vector.getElem?_eq_getElem h⟩

/-! ## The display -/

theorem State.pixel_clearDisplay (s : State) (col : Fin displayW) (row : Fin displayH) :
    s.clearDisplay.pixel col row = 0 := by
  simp [State.pixel, State.clearDisplay, Display.clear]

/-! ## Memory -/

theorem State.memWf_writeByte {s : State} (a : Nat) (b : Byte) (h : s.mem.wf s.params.font) :
    (s.writeByte a b).mem.wf s.params.font := Memory.wf_write a b h

theorem State.readByte_writeByte_same {s : State} {a : Nat} (b : Byte) (h : s.mem.wf s.params.font)
    (ha : a < memSize) : (s.writeByte a b).readByte a = b := Memory.read_write_same b h ha

theorem State.readByte_writeByte_ne (s : State) {a n : Nat} (b : Byte) (h : n ≠ a) :
    (s.writeByte a b).readByte n = s.readByte n := Memory.read_write_ne s.mem b h

/-- Writing bytes changes memory only. -/
theorem State.writeBytes_eq (s : State) (a : Nat) (bs : List Byte) :
    s.writeBytes a bs = { s with mem := (s.writeBytes a bs).mem } := by
  induction bs generalizing s a with
  | nil => rfl
  | cons b bs ih => exact (ih (s.writeByte a b) (a + 1)).trans rfl

@[simp] theorem State.writeBytes_params (s : State) (a : Nat) (bs : List Byte) :
    (s.writeBytes a bs).params = s.params := by rw [State.writeBytes_eq]

/-- Writing bytes keeps the canonical form. -/
theorem State.memWf_writeBytes {s : State} (a : Nat) (bs : List Byte) (h : s.mem.wf s.params.font) :
    (s.writeBytes a bs).mem.wf s.params.font := by
  induction bs generalizing s a with
  | nil => exact h
  | cons b bs ih => exact ih (s := s.writeByte a b) (a + 1) (State.memWf_writeByte a b h)

/-- Bytes outside the written range read as before. -/
theorem State.readByte_writeBytes_outside (s : State) (a : Nat) (bs : List Byte) {n : Nat}
    (h : n < a ∨ a + bs.length ≤ n) : (s.writeBytes a bs).readByte n = s.readByte n := by
  induction bs generalizing s a with
  | nil => rfl
  | cons b bs ih =>
    rw [List.length_cons] at h
    exact (ih (s.writeByte a b) (a + 1) (by omega)).trans (State.readByte_writeByte_ne s b (by omega))

/-- Byte k of the written sequence is at address a + k, when that lies in memory. -/
theorem State.readByte_writeBytes_inside {s : State} (a : Nat) (bs : List Byte) (h : s.mem.wf s.params.font) {k : Nat}
    (hk : k < bs.length) (ha : a + k < memSize) : (s.writeBytes a bs).readByte (a + k) = bs[k] := by
  induction bs generalizing s a k with
  | nil => simp at hk
  | cons b bs ih =>
    cases k with
    | zero =>
      refine (State.readByte_writeBytes_outside (s.writeByte a b) (a + 1) bs (.inl (by omega))).trans ?_
      exact State.readByte_writeByte_same b h (by omega)
    | succ k =>
      have := ih (s := s.writeByte a b) (a + 1) (State.memWf_writeByte a b h) (k := k)
        (by simpa using hk) (by omega)
      rw [show a + (k + 1) = a + 1 + k by omega]
      exact this

/-- `MemRead(addr, 2)` inside memory: the first byte is the high one. -/
theorem State.memRead_two (s : State) (addr : Word) :
    s.memRead addr 2 =
      if addr.toNat + 2 ≤ memSize then
        .ok ((s.readByte addr.toNat).toNat * 256 + (s.readByte (addr.toNat + 1)).toNat)
      else .error .memoryOutOfRange := by
  simp [State.memRead, State.readBytes, bigEndian]

end Sys2Proof.Machine
end

