-- ==== Sys2Proof/Laws/Step.lean ====
section
/-! SUPPORT. What the fetch, the execute step and a whole step can do, said once. -/

namespace Sys2Proof.Machine

/-- The fetch inside memory gives the word at pc, and outside it MemoryOutOfRange. -/
theorem State.fetch_eq (s : State) :
    s.fetch = if s.Fetchable then .ok s.wordAtPc else .error .memoryOutOfRange := by
  unfold State.fetch
  rw [State.memRead_two]
  by_cases h : s.Fetchable
  · rw [if_pos h, if_pos (by simp only [State.Fetchable, memSize] at h ⊢; omega)]
    refine congrArg Except.ok ?_
    apply BitVec.eq_of_toNat_eq
    rw [State.wordAtPc, wordOfBytes_toNat, BitVec.toNat_ofNat]
    have := (s.readByte s.pc.toNat).isLt
    have := (s.readByte (s.pc.toNat + 1)).isLt
    omega
  · rw [if_neg h, if_neg (by simp only [State.Fetchable, memSize] at h ⊢; omega)]

/-! ## The meanings with a branch -/

/-- RET underflows on an empty stack, and otherwise pops and jumps to the popped value. -/
theorem execRet_cases (s : State) :
    (s.sp = 0 ∧ execRet s = .next (s.halt .stackUnderflow)) ∨
    (s.sp ≠ 0 ∧ ∃ (x : Word) (k : CallStack), s.slot? (s.sp - 1) = some x ∧ k.cap = s.stackCap ∧
      k.sp.val = s.sp - 1 ∧ (∀ j : Nat, k.slots[j]? = s.slot? j) ∧
      execRet s = .next ({ s with stack := k }.setPc x)) := by
  unfold execRet
  rcases s.stack.pop_cases with ⟨h, he⟩ | ⟨h, x, k, he, hc, hs, hx, hk⟩
  · exact .inl ⟨h, by rw [he]; rfl⟩
  · exact .inr ⟨h, x, k, hx, hc, hs, hk, by rw [he]⟩

/-- CALL overflows at capacity, and otherwise pushes its own address and jumps. -/
theorem execCall_cases (addr : Addr) (s : State) :
    (s.sp = s.stackCap ∧ execCall addr s = .next (s.halt .stackOverflow)) ∨
    (s.sp < s.stackCap ∧ ∃ k : CallStack, k.cap = s.stackCap ∧ k.sp.val = s.sp + 1 ∧
      k.slots[s.sp]? = some s.pc ∧ (∀ j : Nat, j ≠ s.sp → k.slots[j]? = s.slot? j) ∧
      execCall addr s = .next ({ s with stack := k }.setPc (preAdjusted addr))) := by
  unfold execCall
  rcases s.stack.push_cases s.pc with ⟨h, he⟩ | ⟨h, k, he, hc, hs, hx, hk⟩
  · exact .inl ⟨h, by rw [he]; rfl⟩
  · exact .inr ⟨h, k, hc, hs, hx, hk, by rw [he]⟩

/-- The jump target, one advance before `addr`. -/
theorem preAdjusted_add_two (addr : Addr) : preAdjusted addr + 2 = zext16 addr := by
  simp only [preAdjusted, BitVec.sub_add_cancel]

/-- The jump target as a number, once the cycle has advanced. -/
theorem preAdjusted_advance_toNat (addr : Addr) : (preAdjusted addr + 2).toNat = addr.toNat := by
  rw [preAdjusted_add_two, zext16_toNat]

/-! ## The step -/

@[simp] theorem finishCycle_next (t : State) : finishCycle (.next t) = .next (if t.halted then t else t.advance) := rfl

/-- Everything a step can do: nothing, when halted; a fatal condition at the pc check; a fatal condition at the fetch;
or the execute step of the instruction at pc, with the uniform advance unless it halted the block. -/
theorem step_cases {s t : State} (h : step s = .next t) :
    (s.halted = true ∧ t = s) ∨
    (s.Running ∧ 0x1000 ≤ s.pc.toNat ∧ t = s.halt .programCounterOutOfRange) ∨
    (s.Running ∧ s.pc.toNat = 0xFFF ∧ t = s.halt .memoryOutOfRange) ∨
    (s.Running ∧ s.Fetchable ∧ ∃ u, exec s.instrAtPc s = .next u ∧ t = if u.halted then u else u.advance) := by
  unfold step at h
  split at h
  · next hh => exact .inl ⟨hh, by cases h; rfl⟩
  · next hh =>
    have hr : s.Running := by simpa using hh
    unfold cycle State.checkPc at h
    by_cases hpc : s.pc.toNat > 0x0FFF
    · rw [if_pos hpc] at h
      cases h
      exact .inr (.inl ⟨hr, hpc, rfl⟩)
    · rw [if_neg hpc, State.fetch_eq] at h
      by_cases hf : s.Fetchable
      · rw [if_pos hf] at h
        refine .inr (.inr (.inr ⟨hr, hf, ?_⟩))
        change finishCycle (exec s.instrAtPc s) = .next t at h
        cases he : exec s.instrAtPc s with
        | next u => rw [he] at h; cases h; exact ⟨u, rfl, rfl⟩
        | fault r => rw [he] at h; cases h
        | refused r => rw [he] at h; cases h
      · rw [if_neg hf] at h
        cases h
        simp only [State.Fetchable] at hf
        exact .inr (.inr (.inl ⟨hr, by omega, rfl⟩))

/-! ## Runs -/

/-- A run of any machine, one step at a time. -/
theorem run_succ_of_core (M : Host.Core) {s t : M.State} (n : Nat) (h : M.step s = .next t) :
    M.run (n + 1) s = M.run n t := by
  rw [Host.Core.run, h]

@[simp] theorem runSteps_zero (s : State) : runSteps 0 s = .next s := rfl

/-- A run of n + 1 steps of the block is a step and a run of n. -/
theorem runSteps_succ {s t : State} (n : Nat) (h : step s = .next t) : runSteps (n + 1) s = runSteps n t :=
  run_succ_of_core Sys2Proof.core n h

end Sys2Proof.Machine
end

