-- ==== Sys2Proof/Laws/Exec.lean ====
section
/-! SUPPORT. What the execute step of any instruction can do, said once: which parts of the state its next state can differ in, and when it raises a fatal condition. -/

namespace Sys2Proof.Machine

/-- The execute step of every instruction answers a next state. It leaves halted and cause alone, but for a CALL at
capacity and a RET on an empty stack, which raise their fatal condition and do nothing else. -/
theorem exec_fatal_cases (i : Instr) (s : State) :
    ∃ t, exec i s = .next t ∧
      ((t.halted = s.halted ∧ t.cause = s.cause ∧ ¬((∃ addr, i = .call addr) ∧ s.sp = s.stackCap) ∧
          ¬(i = .ret ∧ s.sp = 0)) ∨
        (t = s.halt .stackOverflow ∧ (∃ addr, i = .call addr) ∧ s.sp = s.stackCap) ∨
        (t = s.halt .stackUnderflow ∧ i = .ret ∧ s.sp = 0)) := by
  cases i
  case ret =>
    rcases execRet_cases s with ⟨h, e⟩ | ⟨h, x, k, _, _, _, _, e⟩
    · exact ⟨_, e, .inr (.inr ⟨rfl, rfl, h⟩)⟩
    · exact ⟨_, e, .inl ⟨rfl, rfl, by simp, by simp [h]⟩⟩
  case call addr =>
    rcases execCall_cases addr s with ⟨h, e⟩ | ⟨h, k, _, _, _, _, e⟩
    · exact ⟨_, e, .inr (.inl ⟨rfl, ⟨addr, rfl⟩, h⟩)⟩
    · exact ⟨_, e, .inl ⟨rfl, rfl, by omega, by simp⟩⟩
  case seByte x kk => exact ⟨_, skipIf_eq _ _, .inl ⟨rfl, rfl, by simp, by simp⟩⟩
  case sneByte x kk => exact ⟨_, skipIf_eq _ _, .inl ⟨rfl, rfl, by simp, by simp⟩⟩
  case seReg x y z => exact ⟨_, skipIf_eq _ _, .inl ⟨rfl, rfl, by simp, by simp⟩⟩
  case sneReg x y z => exact ⟨_, skipIf_eq _ _, .inl ⟨rfl, rfl, by simp, by simp⟩⟩
  all_goals exact ⟨_, rfl, .inl ⟨rfl, rfl, by simp, by simp⟩⟩

/-- The next state of an execute step differs from the state before it in registers alone (and then only in those the
instruction writes), in pc alone, in the display alone, in halted and cause alone, or, for RET and CALL, in pc and the
stack. -/
theorem exec_shape {i : Instr} {s t : State} (h : exec i s = .next t) :
    (t = { s with v := t.v } ∧ ∀ r, r ∉ i.writes → t.getV r = s.getV r) ∨
    (i.writes = [] ∧
      (t = { s with pc := t.pc } ∨ t = s.clearDisplay ∨ (∃ c, t = s.halt c) ∨
        ((i = .ret ∨ ∃ addr, i = .call addr) ∧ t = { s with stack := t.stack, pc := t.pc }))) := by
  cases i
  case ret =>
    rcases execRet_cases s with ⟨_, e⟩ | ⟨_, _, _, _, _, _, _, e⟩ <;>
      (rw [show exec .ret s = execRet s from rfl, e] at h; cases h)
    · exact .inr ⟨rfl, .inr (.inr (.inl ⟨_, rfl⟩))⟩
    · exact .inr ⟨rfl, .inr (.inr (.inr ⟨.inl rfl, rfl⟩))⟩
  case call addr =>
    rcases execCall_cases addr s with ⟨_, e⟩ | ⟨_, _, _, _, _, _, e⟩ <;>
      (rw [show exec (.call addr) s = execCall addr s from rfl, e] at h; cases h)
    · exact .inr ⟨rfl, .inr (.inr (.inl ⟨_, rfl⟩))⟩
    · exact .inr ⟨rfl, .inr (.inr (.inr ⟨.inr ⟨addr, rfl⟩, rfl⟩))⟩
  case cls => cases h; exact .inr ⟨rfl, .inr (.inl rfl)⟩
  case clsAsBuilt addr => cases h; exact .inr ⟨rfl, .inr (.inl rfl)⟩
  case seByte x kk => cases (skipIf_eq _ _).symm.trans h; exact .inr ⟨rfl, .inl rfl⟩
  case sneByte x kk => cases (skipIf_eq _ _).symm.trans h; exact .inr ⟨rfl, .inl rfl⟩
  case seReg x y z => cases (skipIf_eq _ _).symm.trans h; exact .inr ⟨rfl, .inl rfl⟩
  case sneReg x y z => cases (skipIf_eq _ _).symm.trans h; exact .inr ⟨rfl, .inl rfl⟩
  case ldByte x kk => cases h; exact .inl ⟨rfl, fun r hr => State.getV_setV_ne _ _ fun e => hr (by simp [Instr.writes, Instr.dest, e])⟩
  case addByte x kk => cases h; exact .inl ⟨rfl, fun r hr => State.getV_setV_ne _ _ fun e => hr (by simp [Instr.writes, Instr.dest, e])⟩
  case ldReg x y => cases h; exact .inl ⟨rfl, fun r hr => State.getV_setV_ne _ _ fun e => hr (by simp [Instr.writes, Instr.dest, e])⟩
  case orReg x y => cases h; exact .inl ⟨rfl, fun r hr => State.getV_setV_ne _ _ fun e => hr (by simp [Instr.writes, Instr.dest, e])⟩
  case andReg x y => cases h; exact .inl ⟨rfl, fun r hr => State.getV_setV_ne _ _ fun e => hr (by simp [Instr.writes, Instr.dest, e])⟩
  case xorReg x y => cases h; exact .inl ⟨rfl, fun r hr => State.getV_setV_ne _ _ fun e => hr (by simp [Instr.writes, Instr.dest, e])⟩
  case jp addr => cases h; exact .inr ⟨rfl, .inl rfl⟩
  case sys addr => cases h; exact .inr ⟨rfl, .inl rfl⟩
  case unimpl8 x y z => cases h; exact .inr ⟨rfl, .inl rfl⟩
  case unimplA addr => cases h; exact .inr ⟨rfl, .inl rfl⟩
  case unimplB addr => cases h; exact .inr ⟨rfl, .inl rfl⟩
  case unimplC x kk => cases h; exact .inr ⟨rfl, .inl rfl⟩
  case unimplD x y z => cases h; exact .inr ⟨rfl, .inl rfl⟩
  case unimplE x y z => cases h; exact .inr ⟨rfl, .inl rfl⟩
  case unimplF x y z => cases h; exact .inr ⟨rfl, .inl rfl⟩
  all_goals
    cases h
    refine .inl ⟨rfl, fun r hr => ?_⟩
    simp only [Instr.writes, Instr.dest, Instr.writesFlag, Option.toList_some, if_true, List.cons_append, List.nil_append,
      List.mem_cons, List.not_mem_nil, or_false, not_or] at hr
    exact (State.getV_setV_ne _ _ hr.1).trans (State.getV_setV_ne _ _ hr.2)

end Sys2Proof.Machine
end

