-- ==== Sys2Proof/Laws/PerInstr.lean ====
section
/-! SUPPORT. Per instruction: the word of every instruction fits the mask and pattern of its own row of the opcode table (R78). -/

namespace Sys2Proof.Laws

/-! ## Masks on formats -/

/-- The mask 0xF000 keeps the family. -/
theorem mask_formatA (f : Nibble) (addr : Addr) : formatA f addr &&& 0xF000 = formatA f 0 := by
  have h : (0xF000 : Word) = ((0xF#4 ++ 0#12 : BitVec (4 + 12)) : Word) := rfl
  rw [h]
  refine (BitVec.and_append (x₁ := f) (x₂ := 0xF#4) (y₁ := addr) (y₂ := 0#12)).trans ?_
  rw [BitVec.and_zero, show f &&& 0xF#4 = f from BitVec.and_allOnes]
  rfl

theorem formatXK_as_A (f : Nibble) (x : Reg) (kk : Byte) : ∃ a, formatXK f x kk = formatA f a :=
  ⟨fieldAddr (formatXK f x kk), by conv => lhs; rw [← formatA_fields (formatXK f x kk), family_formatXK]⟩

theorem formatXYZ_as_A (f : Nibble) (x y : Reg) (z : Nibble) : ∃ a, formatXYZ f x y z = formatA f a :=
  ⟨fieldAddr (formatXYZ f x y z), by conv => lhs; rw [← formatA_fields (formatXYZ f x y z), family_formatXYZ]⟩

theorem mask_formatXK (f : Nibble) (x : Reg) (kk : Byte) : formatXK f x kk &&& 0xF000 = formatA f 0 := by
  obtain ⟨a, h⟩ := formatXK_as_A f x kk
  rw [h, mask_formatA]

theorem mask_formatXYZ (f : Nibble) (x y : Reg) (z : Nibble) : formatXYZ f x y z &&& 0xF000 = formatA f 0 := by
  obtain ⟨a, h⟩ := formatXYZ_as_A f x y z
  rw [h, mask_formatA]

/-- The mask 0xF00F keeps the family and the selector. -/
theorem mask_formatXYZ_selector (f : Nibble) (x y : Reg) (z : Nibble) :
    formatXYZ f x y z &&& 0xF00F = formatXYZ f 0 0 z := by
  have h : (0xF00F : Word) = ((0xF#4 ++ 0#4 ++ 0#4 ++ 0xF#4 : BitVec (4 + 4 + 4 + 4)) : Word) := rfl
  rw [h]
  refine (BitVec.and_append (x₁ := f ++ regBits x ++ regBits y) (x₂ := 0xF#4 ++ 0#4 ++ 0#4) (y₁ := z) (y₂ := 0xF#4)).trans ?_
  rw [BitVec.and_append, BitVec.and_append, BitVec.and_zero, BitVec.and_zero,
    show f &&& 0xF#4 = f from BitVec.and_allOnes, show z &&& 0xF#4 = z from BitVec.and_allOnes]
  rfl

end Sys2Proof.Laws

namespace Sys2Proof.Laws.FitsRow

/-- The instruction's word fits the mask and pattern of its row. -/
def Statement (i : Instr) : Prop := ∃ r, opcodeTable[i.tableRow]? = some r ∧ encode i &&& r.mask = r.pattern

theorem cls : Statement .cls := ⟨_, rfl, rfl⟩

theorem ret : Statement .ret := ⟨_, rfl, rfl⟩

theorem sys (addr : Addr) : Statement (.sys addr) := ⟨_, rfl, mask_formatA _ addr⟩

theorem clsAsBuilt (addr : Addr) : Statement (.clsAsBuilt addr) := ⟨_, rfl, mask_formatA _ addr⟩

theorem jp (addr : Addr) : Statement (.jp addr) := ⟨_, rfl, mask_formatA _ addr⟩

theorem call (addr : Addr) : Statement (.call addr) := ⟨_, rfl, mask_formatA _ addr⟩

theorem seByte (x : Reg) (kk : Byte) : Statement (.seByte x kk) := ⟨_, rfl, mask_formatXK _ x kk⟩

theorem sneByte (x : Reg) (kk : Byte) : Statement (.sneByte x kk) := ⟨_, rfl, mask_formatXK _ x kk⟩

theorem seReg (x : Reg) (y : Reg) (z : Nibble) : Statement (.seReg x y z) := ⟨_, rfl, mask_formatXYZ _ x y z⟩

theorem ldByte (x : Reg) (kk : Byte) : Statement (.ldByte x kk) := ⟨_, rfl, mask_formatXK _ x kk⟩

theorem addByte (x : Reg) (kk : Byte) : Statement (.addByte x kk) := ⟨_, rfl, mask_formatXK _ x kk⟩

theorem ldReg (x : Reg) (y : Reg) : Statement (.ldReg x y) := ⟨_, rfl, mask_formatXYZ_selector _ x y _⟩

theorem orReg (x : Reg) (y : Reg) : Statement (.orReg x y) := ⟨_, rfl, mask_formatXYZ_selector _ x y _⟩

theorem andReg (x : Reg) (y : Reg) : Statement (.andReg x y) := ⟨_, rfl, mask_formatXYZ_selector _ x y _⟩

theorem xorReg (x : Reg) (y : Reg) : Statement (.xorReg x y) := ⟨_, rfl, mask_formatXYZ_selector _ x y _⟩

theorem addReg (x : Reg) (y : Reg) : Statement (.addReg x y) := ⟨_, rfl, mask_formatXYZ_selector _ x y _⟩

theorem subReg (x : Reg) (y : Reg) : Statement (.subReg x y) := ⟨_, rfl, mask_formatXYZ_selector _ x y _⟩

theorem shrReg (x : Reg) (y : Reg) : Statement (.shrReg x y) := ⟨_, rfl, mask_formatXYZ_selector _ x y _⟩

theorem subnReg (x : Reg) (y : Reg) : Statement (.subnReg x y) := ⟨_, rfl, mask_formatXYZ_selector _ x y _⟩

theorem shlReg (x : Reg) (y : Reg) : Statement (.shlReg x y) := ⟨_, rfl, mask_formatXYZ_selector _ x y _⟩

theorem unimpl8 (x : Reg) (y : Reg) (z : Nibble) : Statement (.unimpl8 x y z) := ⟨_, rfl, mask_formatXYZ _ x y z⟩

theorem sneReg (x : Reg) (y : Reg) (z : Nibble) : Statement (.sneReg x y z) := ⟨_, rfl, mask_formatXYZ _ x y z⟩

theorem unimplA (addr : Addr) : Statement (.unimplA addr) := ⟨_, rfl, mask_formatA _ addr⟩

theorem unimplB (addr : Addr) : Statement (.unimplB addr) := ⟨_, rfl, mask_formatA _ addr⟩

theorem unimplC (x : Reg) (kk : Byte) : Statement (.unimplC x kk) := ⟨_, rfl, mask_formatXK _ x kk⟩

theorem unimplD (x : Reg) (y : Reg) (z : Nibble) : Statement (.unimplD x y z) := ⟨_, rfl, mask_formatXYZ _ x y z⟩

theorem unimplE (x : Reg) (y : Reg) (z : Nibble) : Statement (.unimplE x y z) := ⟨_, rfl, mask_formatXYZ _ x y z⟩

theorem unimplF (x : Reg) (y : Reg) (z : Nibble) : Statement (.unimplF x y z) := ⟨_, rfl, mask_formatXYZ _ x y z⟩

end Sys2Proof.Laws.FitsRow
end

