-- ==== Sys2Proof/Tests/Slice0.lean ====
section
/-! SUPPORT. Tests on fixed values, expected results from spec/95_test_vectors.md and the encodings of spec/30_encoding.md, and a witness for every statement that has hypotheses. -/

namespace Sys2Proof.Tests

open Sys2Proof Sys2Proof.Machine

/-! ## Helpers -/

/-- The state of a next outcome satisfies `p`. -/
def nextIs (o : Host.Outcome State Fault Refusal) (p : State → Bool) : Bool :=
  match o with
  | .next t => p t
  | .fault _ => false
  | .refused _ => false

/-- Reset with one word at pc. -/
def at200 (w : Nat) : State := State.reset.withFetchWord 16 w

/-- The state a step leaves. -/
def stepOf (s : State) : State :=
  match step s with
  | .next t => t
  | .fault _ => s
  | .refused _ => s

/-- The registers V1 and V2 set. -/
def v12 (s : State) (a b : Byte) : State := (s.setV 1 a).setV 2 b

/-- After one step V1 and VF hold these values. -/
def gives (s : State) (v1 vF : Byte) : Bool := nextIs (step s) fun t => t.getV 1 == v1 && t.getV 0xF == vF

/-- After one step VF holds this value and pc has advanced by 2. -/
def givesVF (s : State) (vF : Byte) : Bool := nextIs (step s) fun t => t.getV 0xF == vF && t.pc == 0x202

/-- After one step pc holds this value, and the block runs on. -/
def pcAfter (s : State) (p : Word) : Bool := nextIs (step s) fun t => t.pc == p && !t.halted

/-- The default parameters but for the dispatch of family 0x0. -/
def asBuiltParams : Params := { defaultConfig.params with zeroDispatch := .asBuilt }

/-- A machine under `as_built`, right after reset, with one word at pc. -/
def asBuiltAt200 (cap w : Nat) : State :=
  (State.resetWith { stackCap := cap, params := asBuiltParams }).withFetchWord 16 w

/-- A machine with a stack of one entry, in use, and one word at pc. -/
def fullAt200 (w : Nat) : State :=
  { (State.resetWith { stackCap := 1, params := defaultConfig.params }).withFetchWord 16 w with
    stack := { cap := 1, slots := #v[0x300], sp := 1 } }

/-- A machine with `timer_tick` wired and these timer values. -/
def wiredTimers (dt st : Byte) : State :=
  { State.reset with dt := dt, st := st, params := { defaultConfig.params with timerTickWired := true } }

/-- The display with the pixel of column 63, row 31 set. -/
def litCorner : Display := Display.clear.set 63 (Vector.replicate displayH 1)

/-! ## WellFormed smoke: ill-formed terms the check refuses -/

theorem test_wf_refuses_sys_spelling_cls : (Instr.sys 0x0E0).wf .compare = false := by decide
theorem test_wf_refuses_sys_spelling_ret : (Instr.sys 0x0EE).wf .compare = false := by decide
theorem test_wf_refuses_unimpl8_of_a_row : (Instr.unimpl8 0 0 0x7).wf .compare = false := by decide
theorem test_wf_refuses_unimpl8_of_shl : (Instr.unimpl8 0 0 0xE).wf .asBuilt = false := by decide
theorem test_wf_refuses_cls_under_as_built : Instr.cls.wf .asBuilt = false := by decide
theorem test_wf_refuses_ret_under_as_built : Instr.ret.wf .asBuilt = false := by decide
theorem test_wf_refuses_sys_under_as_built : (Instr.sys 0x123).wf .asBuilt = false := by decide
theorem test_wf_refuses_as_built_cls_under_compare : (Instr.clsAsBuilt 0).wf .compare = false := by decide
theorem test_wf_accepts_unimpl8 : (Instr.unimpl8 1 2 0x8).wf .compare = true := by decide

/-! ## Decoding: every constructor's word written out from the rows of R78 and the fields of R71 -/

theorem test_decode_cls : decodeTableWord 16 0b0000_0000_1110_0000 = some .cls := by decide
theorem test_decode_ret : decodeTableWord 16 0b0000_0000_1110_1110 = some .ret := by decide
theorem test_decode_sys : decodeTableWord 16 0b0000_0001_0010_0011 = some (.sys 0x123) := by decide
theorem test_decode_cls_as_built : decode .asBuilt 0b0000_0000_1110_1110 = .clsAsBuilt 0x0EE := by decide
theorem test_decode_jp : decodeTableWord 16 0b0001_0010_0011_0100 = some (.jp 0x234) := by decide
theorem test_decode_call : decodeTableWord 16 0b0010_1010_1011_1100 = some (.call 0xABC) := by decide
theorem test_decode_se_byte : decodeTableWord 16 0b0011_0011_0100_0010 = some (.seByte 3 0x42) := by decide
theorem test_decode_sne_byte : decodeTableWord 16 0b0100_1111_1000_0001 = some (.sneByte 15 0x81) := by decide
theorem test_decode_se_reg : decodeTableWord 16 0b0101_0001_0010_0000 = some (.seReg 1 2 0) := by decide
theorem test_decode_ld_byte : decodeTableWord 16 0b0110_1010_1111_1111 = some (.ldByte 10 0xFF) := by decide
theorem test_decode_add_byte : decodeTableWord 16 0b0111_0000_0001_0000 = some (.addByte 0 0x10) := by decide
theorem test_decode_ld_reg : decodeTableWord 16 0b1000_0001_0010_0000 = some (.ldReg 1 2) := by decide
theorem test_decode_or : decodeTableWord 16 0b1000_0011_0100_0001 = some (.orReg 3 4) := by decide
theorem test_decode_and : decodeTableWord 16 0b1000_0101_0110_0010 = some (.andReg 5 6) := by decide
theorem test_decode_xor : decodeTableWord 16 0b1000_0111_1000_0011 = some (.xorReg 7 8) := by decide
theorem test_decode_add : decodeTableWord 16 0b1000_1001_1010_0100 = some (.addReg 9 10) := by decide
theorem test_decode_sub : decodeTableWord 16 0b1000_1011_1100_0101 = some (.subReg 11 12) := by decide
theorem test_decode_shr : decodeTableWord 16 0b1000_1101_1110_0110 = some (.shrReg 13 14) := by decide
theorem test_decode_subn : decodeTableWord 16 0b1000_1111_0000_0111 = some (.subnReg 15 0) := by decide
theorem test_decode_shl : decodeTableWord 16 0b1000_0001_1111_1110 = some (.shlReg 1 15) := by decide
theorem test_decode_unimpl8 : decodeTableWord 16 0b1000_0001_0010_1000 = some (.unimpl8 1 2 0x8) := by decide
theorem test_decode_unimpl8_f : decodeTableWord 16 0b1000_0001_0010_1111 = some (.unimpl8 1 2 0xF) := by decide
theorem test_decode_sne_reg : decodeTableWord 16 0b1001_0001_0010_1111 = some (.sneReg 1 2 0xF) := by decide
theorem test_decode_unimpl_a : decodeTableWord 16 0b1010_0001_0010_0011 = some (.unimplA 0x123) := by decide
theorem test_decode_unimpl_b : decodeTableWord 16 0b1011_0011_0000_0000 = some (.unimplB 0x300) := by decide
theorem test_decode_unimpl_c : decodeTableWord 16 0b1100_0000_1111_1111 = some (.unimplC 0 0xFF) := by decide
theorem test_decode_unimpl_d : decodeTableWord 16 0b1101_0000_0001_0101 = some (.unimplD 0 1 5) := by decide
theorem test_decode_unimpl_e : decodeTableWord 16 0b1110_0000_1001_1110 = some (.unimplE 0 9 14) := by decide
theorem test_decode_unimpl_f : decodeTableWord 16 0b1111_0000_0000_1010 = some (.unimplF 0 0 10) := by decide
theorem test_decode_bytes_is_big_endian :
    decodeBytes .compare [0x22, 0x06, 0x00] = .ok (.call 0x206, [0x00]) := rfl
theorem test_decode_refuses_one_byte : decodeBytes .compare [0x22] = .error .truncated := rfl
theorem test_decode_refuses_no_byte : decodeBytes .compare [] = .error .truncated := rfl

/-! ## Parameters, reset and interface (R10, R11, R38, R160; L1 to L4) -/

theorem test_default_parameters :
    State.reset.stackCap = 256 ∧ State.reset.params.zeroDispatch = .compare ∧
    State.reset.params.traceEnable = true ∧ State.reset.params.timerTickWired = false := by decide
/-- The bytes at 0x000 to 0x009 as program P9 lists them, and the last glyph byte of R53. -/
theorem test_reset_font :
    State.reset.readBytes 0x000 10 = [0xF0, 0x90, 0x90, 0x90, 0xF0, 0x20, 0x60, 0x20, 0x20, 0x70] ∧
    State.reset.readByte 0x04F = 0x80 ∧ State.reset.readByte 0x050 = 0 := by decide
theorem test_status_codes :
    [Cause.none, .stackOverflow, .stackUnderflow, .programCounterOutOfRange, .memoryOutOfRange, .romTooLarge,
      .romNotFound].map Cause.code = [0, 1, 2, 3, 4, 5, 6] := by decide
/-- L2. -/
theorem test_load_one_byte :
    (State.reset.loadImage [0xAB]).wordAtPc = 0xAB00 ∧ (State.reset.loadImage [0xAB]).halted = false := by decide
/-- L4. -/
theorem test_load_too_large :
    State.reset.loadImage (List.replicate 0xE01 0x12) = State.reset.halt .romTooLarge :=
  if_pos (by rw [List.length_replicate]; decide)
/-- The last byte of the largest image goes to 0xFFF (L3). -/
theorem test_write_top_of_memory :
    (State.reset.writeBytes 0xFFE [0x12, 0x34]).readBytes 0xFFD 3 = [0x00, 0x12, 0x34] := by decide
theorem test_timer_tick_floor_is_zero :
    (wiredTimers 2 0).timerTick.dt = 1 ∧ (wiredTimers 2 0).timerTick.st = 0 := by decide
theorem test_second_load_is_refused :
    (match Session.applyAll [.load [0x00], .load [0x00]] (Session.start defaultConfig) with
      | .refused r => r == .loadNotAccepted
      | _ => false) = true := by decide

/-! ## The cycle (E1 to E7, S13, P8) -/

/-- E1. -/
theorem test_cycle_at_top : pcAfter (State.reset.setPc 0xFFE) 0x1000 = true := by decide
/-- E2. -/
theorem test_cycle_pc_out_of_range :
    nextIs (step (State.reset.setPc 0x1000)) (fun t => t.status == ⟨true, 3⟩ && t.pc == 0x1000) = true := by decide
/-- E3. -/
theorem test_cycle_fetch_out_of_range :
    nextIs (step (State.reset.setPc 0xFFF)) (fun t => t.status == ⟨true, 4⟩ && t.pc == 0xFFF) = true := by decide
/-- E4. -/
theorem test_cycle_odd_pc :
    nextIs (step ((State.reset.setPc 0x201).withFetchWord 16 0x60AB))
      (fun t => t.getV 0 == 0xAB && t.pc == 0x203) = true := by decide
/-- E5. -/
theorem test_cycle_halted : step (State.reset.halt .stackOverflow) = .next (State.reset.halt .stackOverflow) := rfl
/-- E6. -/
theorem test_trace_record :
    (at200 0x6A07).trace = some ⟨0x6A, 0x07, (Vector.replicate 16 0).set 10 0x07⟩ := by decide
/-- E7. -/
theorem test_trace_none_when_fatal : (State.reset.setPc 0x1000).trace = none := by decide

/-! ## Family 0x0 (Z1 to Z8) -/

/-- Z1. -/
theorem test_cls :
    nextIs (step { at200 0x00E0 with disp := litCorner })
      (fun t => t.pixel 63 31 == 0 && t.pixel 0 0 == 0 && t.pc == 0x202) = true := by decide
/-- Z2. -/
theorem test_ret :
    nextIs (step ((fullAt200 0x00EE).setPc 0x200)) (fun t => t.pc == 0x302 && t.sp == 0 && t.slot? 0 == some 0x300)
      = true := by decide
/-- Z3. -/
theorem test_ret_empty_stack :
    nextIs (step (at200 0x00EE)) (fun t => t.status == ⟨true, 2⟩ && t.pc == 0x200) = true := by decide
/-- Z4. -/
theorem test_sys : pcAfter (at200 0x0123) 0x202 = true := by decide
/-- Z5. -/
theorem test_sys_next_to_cls :
    nextIs (step { at200 0x00E1 with disp := litCorner }) (fun t => t.pixel 63 31 == 1 && t.pc == 0x202)
      = true := by decide
/-- Z6 and Z8: under `as_built` the RET word clears. -/
theorem test_as_built_ret_word_clears :
    nextIs (step { asBuiltAt200 1 0x00EE with disp := litCorner })
      (fun t => t.pixel 63 31 == 0 && t.pc == 0x202 && t.sp == 0 && !t.halted) = true := by decide
/-- Z7. -/
theorem test_as_built_any_word_clears :
    nextIs (step { asBuiltAt200 1 0x0123 with disp := litCorner })
      (fun t => t.pixel 63 31 == 0 && t.pc == 0x202) = true := by decide

/-! ## Jump and call (J1 to J5, C1 to C4) -/

/-- J1. -/
theorem test_jp : pcAfter (at200 0x1234) 0x234 = true := by decide
/-- J2: through 0xFFFE. -/
theorem test_jp_zero : pcAfter (at200 0x1000) 0x000 = true := by decide
/-- C1. -/
theorem test_call :
    nextIs (step (at200 0x2206)) (fun t => t.pc == 0x206 && t.sp == 1 && t.slot? 0 == some 0x200) = true := by decide
/-- C3, with a stack of one entry. -/
theorem test_call_full_stack :
    nextIs (step (fullAt200 0x2400))
      (fun t => t.status == ⟨true, 1⟩ && t.pc == 0x200 && t.sp == 1 && t.slot? 0 == some 0x300) = true := by decide

/-! ## Skips (S1 to S12) -/

/-- S1 and S2. -/
theorem test_se_byte_taken : pcAfter ((at200 0x3342).setV 3 0x42) 0x204 = true := by decide
theorem test_se_byte_not_taken : pcAfter ((at200 0x3342).setV 3 0x41) 0x202 = true := by decide
/-- S3 and S4. -/
theorem test_sne_byte_taken : pcAfter ((at200 0x4342).setV 3 0x41) 0x204 = true := by decide
theorem test_sne_byte_not_taken : pcAfter ((at200 0x4342).setV 3 0x42) 0x202 = true := by decide
/-- S7 and S6. -/
theorem test_se_reg_ignores_z : pcAfter (v12 (at200 0x5121) 0x07 0x07) 0x204 = true := by decide
theorem test_se_reg_not_taken : pcAfter (v12 (at200 0x5120) 0x07 0x08) 0x202 = true := by decide
/-- S8 and S9. -/
theorem test_sne_reg_taken : pcAfter (v12 (at200 0x9120) 0x07 0x08) 0x204 = true := by decide
theorem test_sne_reg_not_taken : pcAfter (v12 (at200 0x912F) 0x07 0x07) 0x202 = true := by decide

/-! ## Load and add immediate (I2, I4, I6) -/

/-- I2. -/
theorem test_ld_byte_vf : givesVF ((at200 0x6F00).setV 15 0x01) 0x00 = true := by decide
/-- I4 with V1. -/
theorem test_add_byte_no_flag : gives ((at200 0x7101).setV 1 0xFF) 0x00 0x00 = true := by decide
/-- I6. -/
theorem test_add_byte_vf : givesVF ((at200 0x7F01).setV 15 0xFF) 0x00 = true := by decide

/-! ## Family 0x8 (A1 to A24, F1 to F18) -/

/-- A1. -/
theorem test_ld_reg : gives ((v12 (at200 0x8120) 0x11 0x9C).setV 15 0x55) 0x9C 0x55 = true := by decide
/-- A2. -/
theorem test_or : gives ((v12 (at200 0x8121) 0xF0 0x0F).setV 15 0x55) 0xFF 0x55 = true := by decide
/-- A3. -/
theorem test_and : gives ((v12 (at200 0x8122) 0xF0 0x3C).setV 15 0x55) 0x30 0x55 = true := by decide
/-- A4. -/
theorem test_xor : gives ((v12 (at200 0x8123) 0xF0 0x3C).setV 15 0x55) 0xCC 0x55 = true := by decide
/-- A8. -/
theorem test_add : gives (v12 (at200 0x8124) 0xFF 0xFF) 0xFE 0x01 = true := by decide
/-- F6. -/
theorem test_add_reads_old_vf : gives (((at200 0x81F4).setV 1 0x05).setV 15 0xFF) 0x04 0x01 = true := by decide
/-- A12. -/
theorem test_sub_equal : gives (v12 (at200 0x8125) 0x07 0x07) 0x00 0x00 = true := by decide
/-- F8. -/
theorem test_sub_reads_new_vf : gives (((at200 0x81F5).setV 1 0x05).setV 15 0x03) 0x04 0x01 = true := by decide
/-- A14. -/
theorem test_shr : gives (v12 (at200 0x8126) 0x77 0x05) 0x02 0x01 = true := by decide
/-- F10. -/
theorem test_shr_reads_new_vf : gives (((at200 0x81F6).setV 1 0x77).setV 15 0x03) 0x00 0x01 = true := by decide
/-- A18. -/
theorem test_subn : gives (v12 (at200 0x8127) 0x05 0x03) 0xFE 0x00 = true := by decide
/-- F14. -/
theorem test_subn_reads_new_vf : gives (((at200 0x81F7).setV 1 0x02).setV 15 0x05) 0xFF 0x01 = true := by decide
/-- A20. -/
theorem test_shl : gives (v12 (at200 0x812E) 0x77 0x81) 0x02 0x01 = true := by decide
/-- F16: the result is written after the flag. -/
theorem test_shl_result_last : givesVF ((at200 0x8F2E).setV 2 0xC0) 0x80 = true := by decide
/-- A24. -/
theorem test_unimpl8 : gives ((v12 (at200 0x812F) 0x11 0x22).setV 15 0x55) 0x11 0x55 = true := by decide

/-! ## Unimplemented families (U1 to U7) -/

/-- U1. -/
theorem test_unimpl_a : nextIs (step (at200 0xA123)) (fun t => t.i == 0 && t.pc == 0x202) = true := by decide
/-- U5. -/
theorem test_unimpl_b : pcAfter (at200 0xB300) 0x202 = true := by decide
/-- U6 with V1. -/
theorem test_unimpl_c : gives ((at200 0xC1FF).setV 1 0x12) 0x12 0x00 = true := by decide
/-- U2. -/
theorem test_unimpl_d :
    nextIs (step { at200 0xD015 with disp := litCorner })
      (fun t => t.pixel 63 31 == 1 && t.pixel 0 0 == 0 && t.getV 15 == 0 && t.pc == 0x202) = true := by decide
/-- U7. -/
theorem test_unimpl_e : pcAfter (at200 0xE09E) 0x202 = true := by decide
/-- U4. -/
theorem test_unimpl_f :
    nextIs (step ((at200 0xF015).setV 0 0x12)) (fun t => t.dt == 0 && t.pc == 0x202) = true := by decide

/-! ## Witnesses: states and operands that meet the hypotheses of the statements -/

theorem test_witness_LoaderContract :
    0xE00 < (List.replicate 0xE01 (0 : Byte)).length ∧
    State.reset.memWf ∧ (List.replicate 0xE00 (0 : Byte)).length ≤ 0xE00 := by
  simp only [List.length_replicate]; decide

/-- Both clauses: after `reset` and a timer tick; after a `step`, and after a `load`, with more transactions. -/
theorem test_witness_LoadAcceptedOnce :
    (∃ e₁ e₂, (Session.start defaultConfig).apply .reset = .next e₁ ∧
      (∀ x ∈ [Transaction.timerTick], x = .timerTick) ∧
      Session.applyAll [.timerTick] e₁ = .next e₂) ∧
    (∃ e₁ e₂, (Session.start defaultConfig).apply .step = .next e₁ ∧
      (∀ y ∈ [Transaction.timerTick], y ≠ .reset) ∧
      Session.applyAll [.timerTick] e₁ = .next e₂) ∧
    (∃ e₁ e₂, (Session.start defaultConfig).apply (.load [0x12]) = .next e₁ ∧
      (∀ y ∈ [Transaction.step], y ≠ .reset) ∧
      Session.applyAll [.step] e₁ = .next e₂) :=
  ⟨⟨_, _, rfl, by decide, rfl⟩, ⟨_, _, rfl, by decide, rfl⟩, ⟨_, _, rfl, by decide, rfl⟩⟩

/-- Both clauses; the counters stand at the two sides of the floor. -/
theorem test_witness_TimerTickCountsDown :
    (wiredTimers 1 0).params.timerTickWired = true ∧ State.reset.params.timerTickWired = false := by decide

/-- E6 through the interface: the record is emitted after those already there, and the load window closes. -/
theorem test_session_step_emits :
    (match (Session.mk (at200 0x6A07) true []).apply .step with
      | .next e => e.state.getV 10 == 0x07 && !e.loadOpen &&
          e.records == [⟨0x6A, 0x07, (Vector.replicate 16 0).set 10 0x07⟩]
      | _ => false) = true := by decide

/-- A completed cycle; a fatal one; a halted block; tracing off; a session whose state steps. -/
theorem test_witness_TraceOutput :
    (∃ t, State.reset.Running ∧ step State.reset = .next t ∧ t.halted = false ∧
      State.reset.params.traceEnable = true) ∧
    (∃ t, step (State.reset.setPc 0x1000) = .next t ∧ t.halted = true) ∧
    (∃ t, step (State.reset.halt .stackOverflow) = .next t ∧ t.halted = true) ∧
    (∃ t, step (State.reset.withTrace false) = .next t ∧
      (State.reset.withTrace false).params.traceEnable = false) ∧
    (∃ t, step (Session.start defaultConfig).state = .next t) :=
  ⟨⟨_, rfl, rfl, rfl, rfl⟩, ⟨_, rfl, rfl⟩, ⟨_, rfl, rfl⟩, ⟨_, rfl, rfl⟩, ⟨_, rfl⟩⟩

theorem test_witness_DecodeEncodeAgree :
    Instr.cls.wf .compare = true ∧ (Instr.sys 0x0E1).wf .compare = true ∧
    (Instr.clsAsBuilt 0x0E0).wf .asBuilt = true ∧
    (Instr.unimpl8 15 15 0xF).wf .asBuilt = true ∧ (Instr.call 0xFFF).wf .compare = true := by decide

/-- Two rows fit the CLS word under `compare`: its own, and the lower-priority row of SYS. -/
theorem test_witness_DecodeTakesTheTablesRow :
    (∃ r', opcodeTable[2]? = some r' ∧ r'.fits .compare 0x00E0 = true ∧
      2 ≠ (decode .compare 0x00E0).tableRow) ∧
    ∃ r', opcodeTable[20]? = some r' ∧ r'.fits .asBuilt 0x812E = true ∧
      20 ≠ (decode .asBuilt 0x812E).tableRow :=
  ⟨⟨_, rfl, by decide, by decide⟩, ⟨_, rfl, by decide, by decide⟩⟩

/-- The four clauses of family 0x0, at the constants and next to them. -/
theorem test_witness_ZeroFamilyDispatch :
    decode .compare (formatA 0x0 0x0E0) = .cls ∧ decode .compare (formatA 0x0 0x0EE) = .ret ∧
    decode .compare (formatA 0x0 0x0E1) = .sys 0x0E1 ∧ decode .compare (formatA 0x0 0x0EF) = .sys 0x0EF ∧
    decode .asBuilt (formatA 0x0 0x0EE) = .clsAsBuilt 0x0EE := by decide

/-- The last fetchable address, and an odd one. -/
theorem test_witness_StepRunsTheDecodedInstruction :
    ((State.reset.setPc 0xFFE).Running ∧ (State.reset.setPc 0xFFE).Fetchable) ∧
    ((State.reset.setPc 0x201).Running ∧ (State.reset.setPc 0x201).Fetchable) := by decide

theorem test_witness_FetchIsBigEndian :
    (State.reset.setPc 0xFFE).Fetchable ∧ (State.reset.setPc 0x000).Fetchable := by decide

theorem test_witness_PlacedWordIsFetched :
    (State.reset.setPc 0xFFE).memWf ∧ (State.reset.setPc 0xFFE).Fetchable ∧ 0xFFFF < 2 ^ 16 := by decide

/-- The clauses of the pc check and the fetch at their boundaries: 0x1000, 0xFFF, and 0xFFE where neither holds. -/
theorem test_witness_PcCheckAndFetchFaults :
    ((State.reset.setPc 0x1000).Running ∧ 0x1000 ≤ (State.reset.setPc 0x1000).pc.toNat) ∧
    ((State.reset.setPc 0xFFF).Running ∧ (State.reset.setPc 0xFFF).pc.toNat = 0xFFF) ∧
    ((State.reset.setPc 0xFFE).Running ∧ ¬ 0x1000 ≤ (State.reset.setPc 0xFFE).pc.toNat ∧
      (State.reset.setPc 0xFFE).pc.toNat ≠ 0xFFF) := by decide

/-- The five clauses: pc 0x1000, pc 0xFFF, CALL on a full stack, RET on an empty one, and neither. -/
theorem test_witness_FatalCausesInOrder :
    ((State.reset.setPc 0x1000).Running ∧ 0x1000 ≤ (State.reset.setPc 0x1000).pc.toNat) ∧
    ((State.reset.setPc 0xFFF).Running ∧ (State.reset.setPc 0xFFF).pc.toNat = 0xFFF) ∧
    ((fullAt200 0x2400).Running ∧ (fullAt200 0x2400).Fetchable ∧
      (∃ addr, (fullAt200 0x2400).instrAtPc = .call addr) ∧
      (fullAt200 0x2400).sp = (fullAt200 0x2400).stackCap) ∧
    ((at200 0x00EE).Running ∧ (at200 0x00EE).Fetchable ∧ (at200 0x00EE).instrAtPc = .ret ∧ (at200 0x00EE).sp = 0) ∧
    ((at200 0x2400).Running ∧ (at200 0x2400).Fetchable ∧ (at200 0x2400).sp ≠ (at200 0x2400).stackCap ∧
      (at200 0x2400).instrAtPc ≠ .ret) :=
  ⟨by decide, by decide, ⟨by decide, by decide, ⟨0x400, by decide⟩, by decide⟩, by decide, by decide⟩

/-- Every cause a cycle can raise. -/
theorem test_witness_FatalConditionsArePrecise :
    (∃ t, (State.reset.setPc 0x1000).Running ∧ step (State.reset.setPc 0x1000) = .next t ∧ t.halted = true) ∧
    (∃ t, (State.reset.setPc 0xFFF).Running ∧ step (State.reset.setPc 0xFFF) = .next t ∧ t.halted = true) ∧
    (∃ t, (fullAt200 0x2400).Running ∧ step (fullAt200 0x2400) = .next t ∧ t.halted = true) ∧
    (∃ t, (at200 0x00EE).Running ∧ step (at200 0x00EE) = .next t ∧ t.halted = true) :=
  ⟨⟨_, rfl, rfl, rfl⟩, ⟨_, rfl, rfl, rfl⟩, ⟨_, rfl, rfl, rfl⟩, ⟨_, rfl, rfl, rfl⟩⟩

/-- The block after a load that was too large: halted, and its load window closed. -/
def haltedSession : Session := { state := State.reset.halt .romTooLarge, loadOpen := false, records := [] }

theorem test_haltedSession_inv : haltedSession.Inv :=
  ⟨⟨by decide, by decide, by decide⟩, by decide⟩

theorem test_witness_HaltIsPermanentUntilReset :
    haltedSession.state.halted = true ∧ haltedSession.Inv ∧
    (∀ x ∈ [Transaction.step, .timerTick], x ≠ .reset) ∧
    ∃ e', Session.applyAll [.step, .timerTick] haltedSession = .next e' :=
  ⟨rfl, test_haltedSession_inv, by decide, ⟨_, rfl⟩⟩

/-- JP to both ends of its range, CALL, a RET with an entry to pop, a skip at 0xFFE, and an instruction of the last
clause: all complete. -/
theorem test_witness_NetEffectOnPc :
    (∃ t, (at200 0x1000).instrAtPc = .jp 0x000 ∧ step (at200 0x1000) = .next t ∧ t.halted = false) ∧
    (∃ t, (at200 0x1FFF).instrAtPc = .jp 0xFFF ∧ step (at200 0x1FFF) = .next t ∧ t.halted = false) ∧
    (∃ t, (at200 0x2000).instrAtPc = .call 0x000 ∧ step (at200 0x2000) = .next t ∧ t.halted = false) ∧
    (∃ t, (fullAt200 0x00EE).instrAtPc = .ret ∧ step (fullAt200 0x00EE) = .next t ∧ t.halted = false) ∧
    (∃ t, (at200 0x8124).instrAtPc = .addReg 1 2 ∧ step (at200 0x8124) = .next t ∧ t.halted = false) :=
  ⟨⟨_, by decide, rfl, rfl⟩, ⟨_, by decide, rfl, rfl⟩, ⟨_, by decide, rfl, rfl⟩, ⟨_, by decide, rfl, rfl⟩,
    ⟨_, by decide, rfl, rfl⟩⟩

/-- The skip clauses, taken at the highest address the fetch reaches. -/
theorem test_witness_NetEffectOnPc_skips :
    pcAfter ((State.reset.setPc 0xFFE).withFetchWord 16 0x3000) 0x1002 = true ∧
    pcAfter ((State.reset.setPc 0xFFE).withFetchWord 16 0x4001) 0x1002 = true ∧
    pcAfter ((State.reset.setPc 0xFFE).withFetchWord 16 0x5120) 0x1002 = true ∧
    pcAfter ((State.reset.setPc 0xFFE).withFetchWord 16 0x9120) 0x1000 = true := by decide

theorem test_witness_RetPopsThePc : (fullAt200 0x00EE).sp ≠ 0 ∧ (at200 0x00EE).sp = 0 := by decide

/-- SP one below capacity, and at capacity. -/
theorem test_witness_CallPushesItsAddress :
    (asBuiltAt200 1 0x2400).sp + 1 = (asBuiltAt200 1 0x2400).stackCap ∧
    (asBuiltAt200 1 0x2400).sp < (asBuiltAt200 1 0x2400).stackCap ∧
    (fullAt200 0x2400).sp = (fullAt200 0x2400).stackCap := by decide

theorem test_witness_UnimplementedFamiliesChangeNothing :
    ((at200 0xA000).Running ∧ (at200 0xA000).Fetchable ∧ 0xA000 ≤ (at200 0xA000).wordAtPc.toNat) ∧
    ((at200 0xFFFF).Running ∧ (at200 0xFFFF).Fetchable ∧ 0xA000 ≤ (at200 0xFFFF).wordAtPc.toNat) := by decide

/-- Registers that are the destination, VF, and neither, in the clauses of the statements of family 0x8. -/
theorem test_witness_family8_register_clauses :
    (1 : Reg) ≠ 0xF ∧ (14 : Reg) ≠ 0xF ∧ (2 : Reg) ≠ 1 ∧ (2 : Reg) ≠ 0xF := by decide

theorem test_witness_OnlyFiveInstructionsWriteAFlag :
    (∃ t, exec (.shlReg 14 15) State.reset = .next t ∧ (Instr.shlReg 14 15).dest ≠ some 0xF ∧
      (Instr.shlReg 14 15).writesFlag = true) ∧
    (∃ t, exec (.addByte 0 0xFF) State.reset = .next t ∧ (Instr.addByte 0 0xFF).dest ≠ some 0xF ∧
      (Instr.addByte 0 0xFF).writesFlag = false) :=
  ⟨⟨_, rfl, by decide, rfl⟩, ⟨_, rfl, by decide, rfl⟩⟩

/-- A register outside the written ones; two states that differ in a register the instruction does not read. -/
theorem test_witness_RegistersReadAndWritten :
    (∃ t, exec (.addReg 1 2) State.reset = .next t ∧ (2 : Reg) ∉ (Instr.addReg 1 2).writes) ∧
    (State.reset.setV 5 7 = { State.reset with v := (State.reset.setV 5 7).v } ∧
      (∀ r ∈ (Instr.addReg 1 2).reads, (State.reset.setV 5 7).getV r = State.reset.getV r) ∧
      (State.reset.setV 5 7).getV 5 ≠ State.reset.getV 5) :=
  ⟨⟨_, rfl, by decide⟩, rfl, by decide, by decide⟩

/-- CALL under `as_built`, below capacity and at capacity (a stack of one entry after one CALL to itself). -/
theorem test_witness_AsBuiltNeverReturns :
    (∃ t, (asBuiltAt200 1 0x2200).params.zeroDispatch = .asBuilt ∧ step (asBuiltAt200 1 0x2200) = .next t ∧
      (asBuiltAt200 1 0x2200).Runs (.call 0x200) ∧ (asBuiltAt200 1 0x2200).sp < (asBuiltAt200 1 0x2200).stackCap) ∧
    (∃ t, (stepOf (asBuiltAt200 1 0x2200)).params.zeroDispatch = .asBuilt ∧
      step (stepOf (asBuiltAt200 1 0x2200)) = .next t ∧ (stepOf (asBuiltAt200 1 0x2200)).Runs (.call 0x200) ∧
      (stepOf (asBuiltAt200 1 0x2200)).sp = (stepOf (asBuiltAt200 1 0x2200)).stackCap) :=
  ⟨⟨_, rfl, rfl, ⟨by decide, by decide, by decide⟩, by decide⟩,
    ⟨_, rfl, rfl, ⟨by decide, by decide, by decide⟩, by decide⟩⟩

/-- The underflow clause, in a halted state that already records it. -/
theorem test_witness_AsBuiltNeverReturns_underflow :
    ∃ t, ((asBuiltAt200 1 0x00EE).halt .stackUnderflow).params.zeroDispatch = .asBuilt ∧
      step ((asBuiltAt200 1 0x00EE).halt .stackUnderflow) = .next t ∧ t.cause = .stackUnderflow :=
  ⟨_, rfl, rfl, rfl⟩

/-- The bounds on code addresses hold with pc at their limit and with a saved pc at its limit. -/
theorem test_witness_StepKeepsInvariants :
    (∃ t, State.reset.Inv ∧ step State.reset = .next t) ∧
    (∃ t, (State.reset.setPc 0x1002).CodeBounds ∧ step (State.reset.setPc 0x1002) = .next t) ∧
    (∃ t, ({ (fullAt200 0x00EE) with stack := { cap := 1, slots := #v[0xFFE], sp := 1 } } : State).CodeBounds ∧
      step { (fullAt200 0x00EE) with stack := { cap := 1, slots := #v[0xFFE], sp := 1 } } = .next t ∧
      t.pc = 0x1000) := by
  refine ⟨⟨_, ⟨by decide, by decide, by decide⟩, rfl⟩, ⟨_, ⟨by decide, fun j x h => absurd h (Nat.not_lt_zero j)⟩, rfl⟩,
    ⟨_, ⟨by decide, fun j x h hx => ?_⟩, rfl, rfl⟩⟩
  obtain rfl : j = 0 := Nat.lt_one_iff.mp h
  cases hx; decide

theorem test_witness_TransactionsKeepInvariant :
    haltedSession.Inv ∧ (∃ e', haltedSession.apply .reset = .next e') ∧
    (Session.start defaultConfig).Inv ∧ ∃ e', (Session.start defaultConfig).apply (.load [0x12, 0x00]) = .next e' :=
  ⟨test_haltedSession_inv, ⟨_, rfl⟩, ⟨⟨by decide, by decide, by decide⟩, by decide⟩, ⟨_, rfl⟩⟩

/-- One memory reached by two different sequences of writes, in form at both ends of memory. -/
theorem test_witness_CanonicalMemoryIsUnique :
    ((Memory.write defaultFont [] 0xFFF 1).write defaultFont 0x000 2).wf defaultFont ∧
    ((Memory.write defaultFont [] 0x000 2).write defaultFont 0xFFF 1).wf defaultFont ∧
    (∀ a, a < 0x1000 →
      ((Memory.write defaultFont [] 0xFFF 1).write defaultFont 0x000 2).read defaultFont a =
        ((Memory.write defaultFont [] 0x000 2).write defaultFont 0xFFF 1).read defaultFont a) ∧
    ((Memory.write defaultFont [] 0xFFF 1).write defaultFont 0x000 2).length = 2 := by
  have e : (Memory.write defaultFont [] 0xFFF 1).write defaultFont 0x000 2 =
      (Memory.write defaultFont [] 0x000 2).write defaultFont 0xFFF 1 := by decide
  exact ⟨by decide, by decide, fun a _ => by rw [e], by decide⟩

theorem test_witness_TimersAndDisplayStayZero :
    ∃ e, Session.applyAll [.load [0x60, 0x05], .step, .timerTick, .step, .reset, .step]
      (Session.start defaultConfig) = .next e :=
  ⟨_, rfl⟩

theorem test_witness_MemoryIsResetOverlaidWithImage :
    [(0x60 : Byte), 0x05].length ≤ 0xE00 ∧ (∀ x ∈ [Transaction.step, .timerTick, .step], x ≠ .reset) ∧
    ∃ e, Session.applyAll (.load [0x60, 0x05] :: [.step, .timerTick, .step]) (Session.start defaultConfig) = .next e :=
  ⟨by decide, by decide, ⟨_, rfl⟩⟩

/-- CALL 0x204 at 0x200, and at 0x204 an ADD and a RET: the callee is a balanced run of one instruction. -/
def callRet : State := State.reset.loadImage [0x22, 0x04, 0x00, 0x00, 0x70, 0x01, 0x00, 0xEE]

theorem test_witness_CallAndReturnLaw :
    callRet.Runs (.call 0x204) ∧ step callRet = .next (stepOf callRet) ∧ (stepOf callRet).Running ∧
    Balanced (stepOf callRet) (stepOf (stepOf callRet)) ∧ (stepOf (stepOf callRet)).Runs .ret ∧
    ∃ w, step (stepOf (stepOf callRet)) = .next w :=
  ⟨⟨by decide, by decide, by decide⟩, rfl, by decide,
    .plain (i := .addByte 0 0x01) ⟨by decide, by decide, by decide⟩ rfl rfl rfl (.done _),
    ⟨by decide, by decide, by decide⟩, ⟨_, rfl⟩⟩

/-- CALL 0x204 at 0x200, at 0x204 a CALL 0x208 and a RET, and at 0x208 a RET. -/
def nestedCallRet : State := State.reset.loadImage [0x22, 0x04, 0x00, 0x00, 0x22, 0x08, 0x00, 0xEE, 0x00, 0xEE]

/-- The callee is a balanced run that calls and returns itself. -/
theorem test_witness_CallAndReturnLaw_nested :
    nestedCallRet.Runs (.call 0x204) ∧ step nestedCallRet = .next (stepOf nestedCallRet) ∧
    (stepOf nestedCallRet).Running ∧
    Balanced (stepOf nestedCallRet) (stepOf (stepOf (stepOf nestedCallRet))) ∧
    (stepOf (stepOf (stepOf nestedCallRet))).Runs .ret ∧
    ∃ w, step (stepOf (stepOf (stepOf nestedCallRet))) = .next w ∧ w.pc = 0x202 ∧ w.sp = 0 :=
  ⟨⟨by decide, by decide, by decide⟩, rfl, by decide,
    .nested (addr := 0x208) ⟨by decide, by decide, by decide⟩ rfl (by decide) (.done _)
      ⟨by decide, by decide, by decide⟩ rfl (.done _),
    ⟨by decide, by decide, by decide⟩, ⟨_, rfl, by decide, by decide⟩⟩

/-- The two clauses on a full and on an empty stack. -/
theorem test_witness_CallAndReturnLaw_limits :
    ((fullAt200 0x2400).Runs (.call 0x400) ∧ (fullAt200 0x2400).sp = (fullAt200 0x2400).stackCap) ∧
    ((at200 0x00EE).Runs .ret ∧ (at200 0x00EE).sp = 0) :=
  ⟨⟨⟨by decide, by decide, by decide⟩, by decide⟩, ⟨by decide, by decide, by decide⟩, by decide⟩

/-- Two states that differ in I, DT, ST, the display and a stale stack entry. -/
theorem test_witness_HiddenStateIsUnobservable :
    Indistinct (stepOf (fullAt200 0x00EE))
      { stepOf (fullAt200 0x00EE) with
        i := 5, dt := 6, st := 7, disp := litCorner, stack := { cap := 1, slots := #v[0x400], sp := 0 } } :=
  ⟨fun _ => rfl, by decide, by decide, by decide, fun j h => absurd h (Nat.not_lt_zero j), fun _ => rfl, by decide,
    by decide, by decide⟩

theorem test_witness_EmptyImageRun : 0x700 ≤ 0x700 ∧ 0x700 < 0x701 := by decide

end Sys2Proof.Tests
end

/-! # Proofs of the state family: flags (O36), RET (O22), CALL (O24) -/

section

namespace Sys2Proof.Machine

/-! ## Frames of the stack operations and of a fatal condition -/

/-- Replacing the stack by one of the same capacity and setting pc, as RET and CALL do, is within the frame of both. -/
theorem State.onlyPcAndStackChange_withStack_setPc (s : State) {k : CallStack} (p : Word) (hcap : k.cap = s.stackCap) :
    OnlyPcAndStackChange s ({ s with stack := k }.setPc p) where
  v _ := rfl
  i := rfl
  stackCap := hcap
  dt := rfl
  st := rfl
  disp := rfl
  halted := rfl
  cause := rfl
  params := rfl
  bytes _ := rfl

/-- R162: halting records the cause and keeps everything else. -/
theorem State.haltedWith_halt (s : State) (c : Cause) : HaltedWith c s (s.halt c) where
  halted := rfl
  cause := rfl
  v _ := rfl
  i := rfl
  pc := rfl
  stack := rfl
  dt := rfl
  st := rfl
  disp := rfl
  params := rfl
  bytes _ := rfl

/-! ## Flags are 0 or 1 -/

theorem bit_toNat_le_one (c : Bool) : (bit c).toNat ≤ 1 := by
  cases c <;> decide

theorem bottomBit_toNat_le_one (b : Byte) : (bottomBit b).toNat ≤ 1 := by
  rw [bottomBit, BitVec.toNat_and]
  exact Nat.and_le_right

/-- The top bit is the bottom bit of the byte shifted right by 7. -/
theorem topBit_toNat_le_one (b : Byte) : (topBit b).toNat ≤ 1 := bottomBit_toNat_le_one (b >>> 7)

/-- A flag that is 0 or 1 for all operands is 0 or 1 in VF once the operation is done, unless its result overwrote VF. -/
theorem flagThenResult_vf_toNat_le_one {flag result : Byte → Byte → Byte} {x y : Reg} {s t : State}
    (h : flagThenResult flag result x y s = .next t) (hx : x ≠ vf) (hflag : ∀ a b, (flag a b).toNat ≤ 1) :
    (t.getV vf).toNat ≤ 1 := by
  obtain ⟨u, hu, -, -, hvf, -⟩ := flagThenResult_cases flag result x y s
  cases hu.symm.trans h
  rw [hvf hx]
  exact hflag _ _

/-! ## The registers an execute step keeps -/

/-- R21: every register that an instruction does not write is kept. -/
theorem exec_getV_of_not_mem_writes {i : Instr} {s t : State} (h : exec i s = .next t) {r : Reg}
    (hr : r ∉ i.writes) : t.getV r = s.getV r := by
  rcases exec_shape h with ⟨-, hkeep⟩ | ⟨-, ht | ht | ⟨c, ht⟩ | ⟨-, ht⟩⟩
  · exact hkeep r hr
  all_goals rw [ht]; rfl

/-- R22: an instruction writes VF only as a flag or as its destination. -/
theorem vf_not_mem_writes {i : Instr} (hf : i.writesFlag = false) (hd : i.dest ≠ some vf) : vf ∉ i.writes := by
  simpa [Instr.writes, hf] using hd

/-- R22: the flag the five instructions leave in VF is 0 or 1, when VF is not their destination. -/
theorem exec_vf_toNat_le_one {i : Instr} {s t : State} (h : exec i s = .next t) (hd : i.dest ≠ some vf)
    (hf : i.writesFlag = true) : (t.getV vf).toNat ≤ 1 := by
  cases i with
  | addReg x y =>
    have hx : vf ≠ x := fun e => hd (congrArg some e.symm)
    cases h
    rw [State.getV_setV_ne _ _ hx, State.getV_setV_same]
    exact bit_toNat_le_one _
  | subReg x y =>
    simp only [exec, execSubReg] at h
    exact flagThenResult_vf_toNat_le_one h (fun e => hd (congrArg some e)) fun _ _ => bit_toNat_le_one _
  | shrReg x y =>
    simp only [exec, execShrReg] at h
    exact flagThenResult_vf_toNat_le_one h (fun e => hd (congrArg some e)) fun _ b => bottomBit_toNat_le_one b
  | subnReg x y =>
    simp only [exec, execSubnReg] at h
    exact flagThenResult_vf_toNat_le_one h (fun e => hd (congrArg some e)) fun _ _ => bit_toNat_le_one _
  | shlReg x y =>
    simp only [exec, execShlReg] at h
    exact flagThenResult_vf_toNat_le_one h (fun e => hd (congrArg some e)) fun _ b => topBit_toNat_le_one b
  | _ => cases hf

end Sys2Proof.Machine

namespace Sys2Proof.Proofs

open Sys2Proof.Machine

/-- Settles O36: a flag-writing instruction leaves a flag of at most 1 in VF; any other one has no VF among the registers
it writes. -/
theorem onlyFiveInstructionsWriteAFlag : Obligations.OnlyFiveInstructionsWriteAFlag := by
  intro i s t h hd
  refine ⟨fun hf => ?_, fun hf => exec_getV_of_not_mem_writes h (vf_not_mem_writes hf hd)⟩
  exact Nat.le_one_iff_eq_zero_or_eq_one.mp (exec_vf_toNat_le_one h hd hf)

/-- Settles O22, by the two outcomes of RET. -/
theorem retPopsThePc : Obligations.RetPopsThePc := by
  intro s
  rcases execRet_cases s with ⟨h0, e⟩ | ⟨h0, x, k, htop, hcap, hsp, hslots, e⟩
  · exact ⟨fun h => absurd h0 h, fun _ => ⟨_, e, s.haltedWith_halt _⟩⟩
  · refine ⟨fun _ => ⟨_, e, htop, ?_, hslots, s.onlyPcAndStackChange_withStack_setPc x hcap⟩, fun h => absurd h h0⟩
    calc k.sp.val + 1 = s.sp - 1 + 1 := by rw [hsp]
      _ = s.sp := Nat.sub_one_add_one h0

/-- Settles O24, by the two outcomes of CALL. -/
theorem callPushesItsAddress : Obligations.CallPushesItsAddress := by
  intro s addr
  rcases execCall_cases addr s with ⟨hfull, e⟩ | ⟨hroom, k, hcap, hsp, htop, hslots, e⟩
  · exact ⟨fun h => absurd hfull (Nat.ne_of_lt h), fun _ => ⟨_, e, s.haltedWith_halt _⟩⟩
  · exact ⟨fun _ => ⟨_, e, htop, hslots, hsp, preAdjusted_advance_toNat addr,
      s.onlyPcAndStackChange_withStack_setPc _ hcap⟩, fun h => absurd h (Nat.ne_of_lt hroom)⟩

end Sys2Proof.Proofs

end

/-! # Proofs of the memory family: the fetch (O14) -/

section

namespace Sys2Proof.Machine

/-- R92: with both bytes in memory the fetch gives the word at pc. -/
theorem State.fetch_of_fetchable {s : State} (h : s.Fetchable) : s.fetch = .ok s.wordAtPc := by
  rw [State.fetch_eq, if_pos h]

/-- R58: the byte at pc is the high byte of the word at pc, and the byte at pc+1 the low one. -/
theorem State.wordAtPc_toNat (s : State) :
    s.wordAtPc.toNat = (s.readByte s.pc.toNat).toNat * 256 + (s.readByte (s.pc.toNat + 1)).toNat :=
  wordOfBytes_toNat _ _

end Sys2Proof.Machine

namespace Sys2Proof.Proofs

open Sys2Proof.Machine

/-- Settles O14: the fetch gives the word at pc, whose bytes are laid out big-endian. -/
theorem fetchIsBigEndian : Obligations.FetchIsBigEndian := by
  intro s hf
  exact ⟨s.wordAtPc, State.fetch_of_fetchable hf, s.wordAtPc_toNat⟩

end Sys2Proof.Proofs

end

/-! # Proofs of the encoding family: the table's rows (O9), the operands (O48) -/

section

namespace Sys2Proof

/-! ## A decoded instruction is well formed and encodes to its word -/

/-- Family 0x0 by mode and address (R75). -/
theorem decodeZero_cases (m : ZeroDispatch) (addr : Addr) :
    (m = .compare ∧ addr = clsAddr ∧ decodeZero m addr = .cls) ∨
    (m = .compare ∧ addr = retAddr ∧ decodeZero m addr = .ret) ∨
    (m = .compare ∧ addr ≠ clsAddr ∧ addr ≠ retAddr ∧ decodeZero m addr = .sys addr) ∨
    (m = .asBuilt ∧ decodeZero m addr = .clsAsBuilt addr) := by
  cases m with
  | asBuilt => exact .inr (.inr (.inr ⟨rfl, rfl⟩))
  | compare =>
    by_cases hc : addr = clsAddr
    · exact .inl ⟨rfl, hc, if_pos hc⟩
    · have skipCls : decodeZero .compare addr = if addr = retAddr then .ret else .sys addr := if_neg hc
      by_cases hr : addr = retAddr
      · exact .inr (.inl ⟨rfl, hr, skipCls.trans (if_pos hr)⟩)
      · exact .inr (.inr (.inl ⟨rfl, hc, hr, skipCls.trans (if_neg hr)⟩))

theorem encode_decodeZero (m : ZeroDispatch) (addr : Addr) : encode (decodeZero m addr) = formatA 0x0 addr := by
  rcases decodeZero_cases m addr with ⟨-, rfl, e⟩ | ⟨-, rfl, e⟩ | ⟨-, -, -, e⟩ | ⟨-, e⟩ <;>
  exact congrArg encode e

theorem encode_decodeEight (x y : Reg) (z : Nibble) : encode (decodeEight x y z) = formatXYZ 0x8 x y z := by
  rcases decodeEight_cases x y z with
    ⟨rfl, e⟩ | ⟨rfl, e⟩ | ⟨rfl, e⟩ | ⟨rfl, e⟩ | ⟨rfl, e⟩ | ⟨rfl, e⟩ | ⟨rfl, e⟩ | ⟨rfl, e⟩ | ⟨rfl, e⟩ | ⟨-, e⟩ <;>
  exact congrArg encode e

theorem formatA_of_family {w : Word} {f : Nibble} (h : family w = f) : formatA f (fieldAddr w) = w :=
  h ▸ formatA_fields w

theorem formatXK_of_family {w : Word} {f : Nibble} (h : family w = f) : formatXK f (fieldX w) (fieldKK w) = w :=
  h ▸ formatXK_fields w

theorem formatXYZ_of_family {w : Word} {f : Nibble} (h : family w = f) :
    formatXYZ f (fieldX w) (fieldY w) (fieldZ w) = w :=
  h ▸ formatXYZ_fields w

/-- The decoder drops no bit of the word (log 17). -/
@[simp] theorem encode_decode (m : ZeroDispatch) (w : Word) : encode (decode m w) = w := by
  rcases decode_cases m w with
    ⟨h, e⟩ | ⟨h, e⟩ | ⟨h, e⟩ | ⟨h, e⟩ | ⟨h, e⟩ | ⟨h, e⟩ | ⟨h, e⟩ | ⟨h, e⟩ |
    ⟨h, e⟩ | ⟨h, e⟩ | ⟨h, e⟩ | ⟨h, e⟩ | ⟨h, e⟩ | ⟨h, e⟩ | ⟨h, e⟩ | ⟨h, e⟩ <;> rw [e]
  · exact (encode_decodeZero m _).trans (formatA_of_family h)
  · exact formatA_of_family h
  · exact formatA_of_family h
  · exact formatXK_of_family h
  · exact formatXK_of_family h
  · exact formatXYZ_of_family h
  · exact formatXK_of_family h
  · exact formatXK_of_family h
  · exact (encode_decodeEight _ _ _).trans (formatXYZ_of_family h)
  · exact formatXYZ_of_family h
  · exact formatA_of_family h
  · exact formatA_of_family h
  · exact formatXK_of_family h
  · exact formatXYZ_of_family h
  · exact formatXYZ_of_family h
  · exact formatXYZ_of_family h

theorem decodeZero_wf (m : ZeroDispatch) (addr : Addr) : (decodeZero m addr).wf m = true := by
  rcases decodeZero_cases m addr with ⟨hm, -, e⟩ | ⟨hm, -, e⟩ | ⟨hm, hc, hr, e⟩ | ⟨hm, e⟩ <;> rw [e, hm]
  · rfl
  · rfl
  · simp [Instr.wf, hc, hr]
  · rfl

theorem decodeEight_wf (m : ZeroDispatch) (x y : Reg) (z : Nibble) : (decodeEight x y z).wf m = true := by
  rcases decodeEight_cases x y z with
    ⟨-, e⟩ | ⟨-, e⟩ | ⟨-, e⟩ | ⟨-, e⟩ | ⟨-, e⟩ | ⟨-, e⟩ | ⟨-, e⟩ | ⟨-, e⟩ | ⟨-, e⟩ | ⟨h, e⟩ <;> rw [e]
  · rfl
  · rfl
  · rfl
  · rfl
  · rfl
  · rfl
  · rfl
  · rfl
  · rfl
  · exact congrArg not h

/-- Every word decodes to a well-formed instruction (R79). -/
theorem decode_wf (m : ZeroDispatch) (w : Word) : (decode m w).wf m = true := by
  rcases decode_cases m w with
    ⟨-, e⟩ | ⟨-, e⟩ | ⟨-, e⟩ | ⟨-, e⟩ | ⟨-, e⟩ | ⟨-, e⟩ | ⟨-, e⟩ | ⟨-, e⟩ |
    ⟨-, e⟩ | ⟨-, e⟩ | ⟨-, e⟩ | ⟨-, e⟩ | ⟨-, e⟩ | ⟨-, e⟩ | ⟨-, e⟩ | ⟨-, e⟩ <;> rw [e]
  · exact decodeZero_wf m _
  · rfl
  · rfl
  · rfl
  · rfl
  · rfl
  · rfl
  · rfl
  · exact decodeEight_wf m _ _ _
  · rfl
  · rfl
  · rfl
  · rfl
  · rfl
  · rfl
  · rfl

/-! ## The instruction's own row fits its word -/

theorem OpcodeRow.mask_eq_of_fits {r : OpcodeRow} {m : ZeroDispatch} {w : Word} (h : r.fits m w = true) :
    w &&& r.mask = r.pattern :=
  eq_of_beq ((Bool.and_eq_true _ _).mp h).2

open Laws in
/-- The word of every instruction fits the mask and pattern of its own row. -/
theorem Instr.fitsRow (i : Instr) : FitsRow.Statement i := by
  cases i with
  | cls => exact FitsRow.cls
  | ret => exact FitsRow.ret
  | sys addr => exact FitsRow.sys addr
  | clsAsBuilt addr => exact FitsRow.clsAsBuilt addr
  | jp addr => exact FitsRow.jp addr
  | call addr => exact FitsRow.call addr
  | seByte x kk => exact FitsRow.seByte x kk
  | sneByte x kk => exact FitsRow.sneByte x kk
  | seReg x y z => exact FitsRow.seReg x y z
  | ldByte x kk => exact FitsRow.ldByte x kk
  | addByte x kk => exact FitsRow.addByte x kk
  | ldReg x y => exact FitsRow.ldReg x y
  | orReg x y => exact FitsRow.orReg x y
  | andReg x y => exact FitsRow.andReg x y
  | xorReg x y => exact FitsRow.xorReg x y
  | addReg x y => exact FitsRow.addReg x y
  | subReg x y => exact FitsRow.subReg x y
  | shrReg x y => exact FitsRow.shrReg x y
  | subnReg x y => exact FitsRow.subnReg x y
  | shlReg x y => exact FitsRow.shlReg x y
  | unimpl8 x y z => exact FitsRow.unimpl8 x y z
  | sneReg x y z => exact FitsRow.sneReg x y z
  | unimplA addr => exact FitsRow.unimplA addr
  | unimplB addr => exact FitsRow.unimplB addr
  | unimplC x kk => exact FitsRow.unimplC x kk
  | unimplD x y z => exact FitsRow.unimplD x y z
  | unimplE x y z => exact FitsRow.unimplE x y z
  | unimplF x y z => exact FitsRow.unimplF x y z

/-- The row of a well-formed instruction exists in the mode, and the instruction's word fits it. -/
theorem Instr.exists_row_fits {i : Instr} {m : ZeroDispatch} (hwf : i.wf m = true) :
    ∃ r, opcodeTable[i.tableRow]? = some r ∧ r.fits m (encode i) = true := by
  obtain ⟨r, hr, hmask⟩ := i.fitsRow
  refine ⟨r, hr, (Bool.and_eq_true _ _).mpr ⟨?_, beq_iff_eq.mpr hmask⟩⟩
  cases i with
  | cls | ret | sys =>
    cases m with
    | compare => cases hr; rfl
    | asBuilt => cases hwf
  | clsAsBuilt =>
    cases m with
    | compare => cases hwf
    | asBuilt => cases hr; rfl
  | _ => cases m <;> cases hr <;> rfl

/-! ## Rows that fit one word: the table lists the more specific one first -/

/-- Some word can fit both rows: they share a mode, and their patterns agree where both masks look. -/
def OpcodeRow.overlaps (r r' : OpcodeRow) : Bool :=
  (r.inCompare && r'.inCompare || r.inAsBuilt && r'.inAsBuilt) && (r.pattern &&& r'.mask == r'.pattern &&& r.mask)

theorem OpcodeRow.overlaps_of_fits {r r' : OpcodeRow} {m : ZeroDispatch} {w : Word} (h : r.fits m w = true)
    (h' : r'.fits m w = true) : r.overlaps r' = true := by
  have hbits : r.pattern &&& r'.mask = r'.pattern &&& r.mask := by
    rw [← mask_eq_of_fits h, ← mask_eq_of_fits h', BitVec.and_assoc, BitVec.and_assoc, BitVec.and_comm r.mask]
  cases m <;> simp only [fits, Bool.and_eq_true] at h h' <;> simp [overlaps, h.1, h'.1, hbits]

/-- Of two rows that overlap, only the later one is marked "(else)", and its priority number is the greater. -/
theorem opcodeTable_pairwise : opcodeTable.Pairwise fun r r' =>
    r.overlaps r' = true → r.priority < r'.priority ∧ r'.isElse = true := by decide

theorem priority_lt_of_overlaps {k k' : Nat} {r r' : OpcodeRow} (hk : opcodeTable[k]? = some r)
    (hk' : opcodeTable[k']? = some r') (hlt : k < k') (h : r.overlaps r' = true) :
    r.priority < r'.priority ∧ r'.isElse = true := by
  obtain ⟨hl, rfl⟩ := List.getElem?_eq_some_iff.mp hk
  obtain ⟨hl', rfl⟩ := List.getElem?_eq_some_iff.mp hk'
  exact List.pairwise_iff_getElem.mp opcodeTable_pairwise k k' hl hl' hlt h

/-! ## An "(else)" row is taken only when no more specific row fits -/

/-- Only SYS and UNIMPL_8 have a row marked "(else)". -/
theorem Instr.cases_of_isElse {i : Instr} {r : OpcodeRow} (hr : opcodeTable[i.tableRow]? = some r)
    (helse : r.isElse = true) : (∃ addr, i = .sys addr) ∨ ∃ x y z, i = .unimpl8 x y z := by
  cases i with
  | sys addr => exact .inl ⟨addr, rfl⟩
  | unimpl8 x y z => exact .inr ⟨x, y, z, rfl⟩
  | _ => cases hr; cases helse

/-- The rows before that of SYS are those of the CLS and RET words. -/
theorem rows_before_sys : ∀ r ∈ opcodeTable.take 2, r.mask = 0xFFFF ∧
    (fieldAddr r.pattern = clsAddr ∨ fieldAddr r.pattern = retAddr) := by decide

/-- The rows before that of UNIMPL_8 that overlap it look at the selector, and it is one with a row of its own (R76). -/
theorem rows_before_unimpl8 : ∀ r ∈ opcodeTable.take 20,
    r.overlaps (opcodeTable[20]'(by decide)) = true →
      r.mask = 0xF00F ∧ isAluSelector (fieldZ r.pattern) = true := by decide

theorem mem_take_of_getElem? {k n : Nat} {r : OpcodeRow} (hk : opcodeTable[k]? = some r) (hlt : k < n) :
    r ∈ opcodeTable.take n :=
  List.mem_of_getElem? ((List.getElem?_take_of_lt hlt).trans hk)

/-- No row before SYS fits the word of a well-formed SYS. -/
theorem not_fits_before_sys {m : ZeroDispatch} {addr : Addr} (hwf : (Instr.sys addr).wf m = true) {k : Nat}
    {r : OpcodeRow} (hk : opcodeTable[k]? = some r) (hlt : k < 2) : ¬ r.fits m (encode (.sys addr)) = true := by
  intro hfit
  obtain ⟨hmask, haddr⟩ := rows_before_sys r (mem_take_of_getElem? hk hlt)
  have hpat : formatA 0x0 addr = r.pattern := by
    have h := OpcodeRow.mask_eq_of_fits hfit
    rw [hmask] at h
    exact BitVec.and_allOnes.symm.trans h
  rw [← hpat, fieldAddr_formatA] at haddr
  rcases haddr with rfl | rfl <;> cases m <;> cases hwf

/-- No row before UNIMPL_8 fits the word of a well-formed UNIMPL_8. -/
theorem not_fits_before_unimpl8 {m : ZeroDispatch} {x y : Reg} {z : Nibble} (hwf : (Instr.unimpl8 x y z).wf m = true)
    {k : Nat} {r : OpcodeRow} (hk : opcodeTable[k]? = some r) (hlt : k < 20) :
    ¬ r.fits m (encode (.unimpl8 x y z)) = true := by
  intro hfit
  obtain ⟨r₈, hr₈, hfit₈⟩ := Instr.exists_row_fits hwf
  cases hr₈
  obtain ⟨hmask, hsel⟩ := rows_before_unimpl8 r (mem_take_of_getElem? hk hlt) (OpcodeRow.overlaps_of_fits hfit hfit₈)
  have hpat : formatXYZ 0x8 0 0 z = r.pattern := by
    have h := OpcodeRow.mask_eq_of_fits hfit
    rw [hmask] at h
    exact (Laws.mask_formatXYZ_selector 0x8 x y z).symm.trans h
  rw [← hpat, fieldZ_formatXYZ] at hsel
  simp [Instr.wf, hsel] at hwf

/-- No row before the instruction's own fits its word. -/
theorem Instr.tableRow_le_of_fits {i : Instr} {m : ZeroDispatch} (hwf : i.wf m = true) {k : Nat} {r : OpcodeRow}
    (hk : opcodeTable[k]? = some r) (hfit : r.fits m (encode i) = true) : i.tableRow ≤ k := by
  refine Nat.le_of_not_lt fun hlt => ?_
  obtain ⟨r₀, hr₀, hfit₀⟩ := exists_row_fits hwf
  obtain ⟨-, helse⟩ := priority_lt_of_overlaps hk hr₀ hlt (OpcodeRow.overlaps_of_fits hfit hfit₀)
  rcases cases_of_isElse hr₀ helse with ⟨addr, rfl⟩ | ⟨x, y, z, rfl⟩
  · exact not_fits_before_sys hwf hk hlt hfit
  · exact not_fits_before_unimpl8 hwf hk hlt hfit

end Sys2Proof

namespace Sys2Proof.Proofs

open Sys2Proof.Machine

/-- Settles O9: the decoded instruction's row is the first of the table that fits the word, and a later row that fits too
is an "(else)" row of a greater priority number. -/
theorem decodeTakesTheTablesRow : Obligations.DecodeTakesTheTablesRow := by
  intro m w
  have hwf := decode_wf m w
  obtain ⟨r, hr, hfit⟩ := Instr.exists_row_fits hwf
  rw [encode_decode] at hfit
  refine ⟨r, hr, hfit, fun k r' hk hfit' hne => ?_⟩
  have hle : (decode m w).tableRow ≤ k := Instr.tableRow_le_of_fits hwf hk (by rwa [encode_decode])
  exact priority_lt_of_overlaps hr hk (Nat.lt_of_le_of_ne hle hne.symm) (OpcodeRow.overlaps_of_fits hfit hfit')

/-- Settles O48: the fields are quotients and remainders of the word's number, and every decoded instruction carries the
fields of its family's format. -/
theorem operandsAreTheWordsFields : Obligations.OperandsAreTheWordsFields := by
  refine ⟨fun w => ?_, fun m w => ?_⟩
  · refine ⟨family_toNat w, fieldX_val w, fieldY_val w, fieldZ_toNat w, fieldAddr_toNat w, fieldKK_toNat w, ?_, ?_⟩
    · rw [fieldAddr_toNat, fieldX_val, fieldY_val, fieldZ_toNat]; omega
    · rw [fieldKK_toNat, fieldY_val, fieldZ_toNat]; omega
  · have hA := fieldAddr_toNat w
    have hXK := And.intro (fieldX_val w) (fieldKK_toNat w)
    have hXY := And.intro (fieldX_val w) (fieldY_val w)
    have hXYZ := And.intro (fieldX_val w) (And.intro (fieldY_val w) (fieldZ_toNat w))
    rcases decode_cases m w with
      ⟨-, e⟩ | ⟨-, e⟩ | ⟨-, e⟩ | ⟨-, e⟩ | ⟨-, e⟩ | ⟨-, e⟩ | ⟨-, e⟩ | ⟨-, e⟩ |
      ⟨-, e⟩ | ⟨-, e⟩ | ⟨-, e⟩ | ⟨-, e⟩ | ⟨-, e⟩ | ⟨-, e⟩ | ⟨-, e⟩ | ⟨-, e⟩ <;> rw [e]
    · rcases decodeZero_cases m (fieldAddr w) with ⟨-, -, e⟩ | ⟨-, -, e⟩ | ⟨-, -, -, e⟩ | ⟨-, e⟩ <;> rw [e]
      · trivial
      · trivial
      · exact hA
      · exact hA
    · exact hA
    · exact hA
    · exact hXK
    · exact hXK
    · exact hXYZ
    · exact hXK
    · exact hXK
    · rcases decodeEight_cases (fieldX w) (fieldY w) (fieldZ w) with
        ⟨-, e⟩ | ⟨-, e⟩ | ⟨-, e⟩ | ⟨-, e⟩ | ⟨-, e⟩ | ⟨-, e⟩ | ⟨-, e⟩ | ⟨-, e⟩ | ⟨-, e⟩ | ⟨-, e⟩ <;> rw [e]
      · exact hXY
      · exact hXY
      · exact hXY
      · exact hXY
      · exact hXY
      · exact hXY
      · exact hXY
      · exact hXY
      · exact hXY
      · exact hXYZ
    · exact hXYZ
    · exact hA
    · exact hA
    · exact hXK
    · exact hXYZ
    · exact hXYZ
    · exact hXYZ

end Sys2Proof.Proofs

end

/-! # Proofs of the engine family: the step (O13) -/

section

namespace Sys2Proof.Machine

/-- R91: with both bytes in memory the pc check passes. -/
theorem State.checkPc_of_fetchable {s : State} (h : s.Fetchable) : s.checkPc = .ok () := by
  have hpc : ¬ s.pc.toNat > 0x0FFF := by simp only [State.Fetchable] at h; omega
  exact if_neg hpc

/-- R90: with both bytes in memory the cycle executes the instruction at pc and then advances. -/
theorem cycle_of_fetchable {s : State} (h : s.Fetchable) : cycle s = finishCycle (exec s.instrAtPc s) := by
  rw [cycle, State.checkPc_of_fetchable h, State.fetch_of_fetchable h]
  rfl

/-- R41: a block that is not halted runs one cycle. -/
theorem step_of_running {s : State} (h : s.Running) : step s = cycle s := if_neg (ne_true_of_eq_false h)

/-- A running block with both bytes in memory executes the instruction at pc and then advances. -/
theorem step_of_fetchable {s : State} (hr : s.Running) (hf : s.Fetchable) :
    step s = finishCycle (exec s.instrAtPc s) :=
  (step_of_running hr).trans (cycle_of_fetchable hf)

end Sys2Proof.Machine

namespace Sys2Proof.Proofs

open Sys2Proof.Machine

/-- Settles O13: the step passes the pc check and the fetch, and each outcome of the execute step ends the cycle as
`finishCycle` says. -/
theorem stepRunsTheDecodedInstruction : Obligations.StepRunsTheDecodedInstruction := by
  intro s hr hf
  rw [step_of_fetchable hr hf, State.instrAtPc, State.wordAtPc]
  cases exec (decode s.params.zeroDispatch
      (wordOfBytes (s.readByte s.pc.toNat) (s.readByte (s.pc.toNat + 1)))) s with
  | next t => rfl
  | fault r => rfl
  | refused r => rfl

end Sys2Proof.Proofs

end

/-! # Proofs of the flow family: CLS (O21), JP (O23) -/

section

namespace Sys2Proof.Machine

/-! ## CLS -/

/-- R100: CLS always completes, in the state with the display cleared. -/
theorem exec_cls (s : State) : exec .cls s = .next s.clearDisplay := rfl

/-- R75, R100: under `as_built` every word of family 0x0 does what CLS does. -/
theorem exec_clsAsBuilt (addr : Addr) (s : State) : exec (.clsAsBuilt addr) s = .next s.clearDisplay := rfl

/-- R100: clearing the display keeps everything else. -/
theorem State.onlyDisplayChanges_clearDisplay (s : State) : OnlyDisplayChanges s s.clearDisplay where
  v := s.clearDisplay_getV
  i := s.clearDisplay_i
  pc := s.clearDisplay_pc
  stack := s.clearDisplay_stack
  dt := s.clearDisplay_dt
  st := s.clearDisplay_st
  halted := s.clearDisplay_halted
  cause := s.clearDisplay_cause
  params := s.clearDisplay_params
  bytes := s.clearDisplay_readByte

/-! ## JP -/

/-- R103: JP always completes, with pc at the pre-adjusted target. -/
theorem exec_jp (addr : Addr) (s : State) : exec (.jp addr) s = .next (s.setPc (preAdjusted addr)) := rfl

/-- R94: the pre-adjusted target is two below the target, modulo 2^16. -/
theorem preAdjusted_toNat (addr : Addr) : (preAdjusted addr).toNat = (addr.toNat + 0x10000 - 2) % 0x10000 := by
  rw [preAdjusted, BitVec.toNat_sub, zext16_toNat]
  change (0x10000 - 2 + addr.toNat) % 0x10000 = _
  congr 1
  omega

/-- Setting pc keeps everything else: the stack is replaced by itself. -/
theorem State.onlyPcChanges_setPc (s : State) (p : Word) : OnlyPcChanges s (s.setPc p) where
  rest := s.onlyPcAndStackChange_withStack_setPc (k := s.stack) p rfl
  stack := s.setPc_stack p

end Sys2Proof.Machine

namespace Sys2Proof.Proofs

open Sys2Proof.Machine

/-- Settles O21: both rows of CLS end in the state with the display cleared. -/
theorem clsClearsTheDisplay : Obligations.ClsClearsTheDisplay := by
  intro s addr
  exact ⟨s.clearDisplay, exec_cls s, exec_clsAsBuilt addr s, s.pixel_clearDisplay, s.onlyDisplayChanges_clearDisplay⟩

/-- Settles O23: JP ends with pc at the pre-adjusted target, which the uniform advance takes to the target. -/
theorem jpLandsOnItsTarget : Obligations.JpLandsOnItsTarget := by
  intro s addr
  exact ⟨s.setPc (preAdjusted addr), exec_jp addr s, preAdjusted_toNat addr, preAdjusted_advance_toNat addr,
    s.onlyPcChanges_setPc (preAdjusted addr)⟩

end Sys2Proof.Proofs

end

/-! # Proofs of the skip family: SE and SNE with an immediate (O27) and with two registers (O28) -/

section

namespace Sys2Proof.Machine

/-! ## What a skip does, by its condition -/

/-- R95: a skip is taken exactly when its condition holds, whichever proposition says so. -/
theorem skipIf_eq_ite {c : Bool} {p : Prop} [Decidable p] (h : c = true ↔ p) (s : State) :
    skipIf c s = .next (if p then { s with pc := s.pc + 2 } else s) := by
  by_cases hp : p
  · rw [if_pos hp, h.mpr hp]
    rfl
  · rw [if_neg hp, Bool.eq_false_iff.mpr (mt h.mp hp)]
    rfl

/-- A skip on equal bytes is taken when they are the same number. -/
theorem skipIf_beq (a b : Byte) (s : State) :
    skipIf (a == b) s = .next (if a.toNat = b.toNat then { s with pc := s.pc + 2 } else s) :=
  skipIf_eq_ite (beq_iff_eq.trans BitVec.toNat_inj.symm) s

/-- A skip on unequal bytes is the skip on equal ones with its two cases exchanged. -/
theorem skipIf_bne (a b : Byte) (s : State) :
    skipIf (a != b) s = .next (if a.toNat = b.toNat then s else { s with pc := s.pc + 2 }) := by
  have hne : (a != b) = true ↔ ¬ a.toNat = b.toNat := bne_iff_ne.trans (not_congr BitVec.toNat_inj.symm)
  rw [skipIf_eq_ite hne, ite_not]

/-! ## The condition of each skip -/

/-- R110: SE Vx, byte skips when V[x] is the immediate. -/
theorem exec_seByte (x : Reg) (kk : Byte) (s : State) :
    exec (.seByte x kk) s = skipIf (s.getV x == kk) s := rfl

/-- R111: SNE Vx, byte skips when V[x] is not the immediate. -/
theorem exec_sneByte (x : Reg) (kk : Byte) (s : State) :
    exec (.sneByte x kk) s = skipIf (s.getV x != kk) s := rfl

/-- R112, R74: SE Vx, Vy skips when the registers are equal, and does not depend on z. -/
theorem exec_seReg (x y : Reg) (z : Nibble) (s : State) :
    exec (.seReg x y z) s = skipIf (s.getV x == s.getV y) s := rfl

/-- R113, R74: SNE Vx, Vy skips when the registers differ, and does not depend on z. -/
theorem exec_sneReg (x y : Reg) (z : Nibble) (s : State) :
    exec (.sneReg x y z) s = skipIf (s.getV x != s.getV y) s := rfl

end Sys2Proof.Machine

namespace Sys2Proof.Proofs

open Sys2Proof.Machine

/-- Settles O27: both instructions are a skip on comparing V[x] with the immediate. -/
theorem skipsOnImmediate : Obligations.SkipsOnImmediate := by
  intro s x kk
  exact ⟨(exec_seByte x kk s).trans (skipIf_beq _ _ s), (exec_sneByte x kk s).trans (skipIf_bne _ _ s)⟩

/-- Settles O28: both instructions are a skip on comparing V[x] with V[y]; z takes no part. -/
theorem skipsOnRegisters : Obligations.SkipsOnRegisters := by
  intro s x y z
  exact ⟨(exec_seReg x y z s).trans (skipIf_beq _ _ s), (exec_sneReg x y z s).trans (skipIf_bne _ _ s)⟩

end Sys2Proof.Proofs

end

/-! # Proofs of the load and add family: LD Vx, byte and ADD Vx, byte (O29) -/

section

namespace Sys2Proof.Machine

/-- R120: LD Vx, byte always completes, with the immediate in V[x]. -/
theorem exec_ldByte (x : Reg) (kk : Byte) (s : State) : exec (.ldByte x kk) s = .next (s.setV x kk) := rfl

/-- R121: ADD Vx, byte always completes, with the 8-bit sum in V[x]; it writes no flag. -/
theorem exec_addByte (x : Reg) (kk : Byte) (s : State) :
    exec (.addByte x kk) s = .next (s.setV x (s.getV x + kk)) := rfl

/-- Writing one register keeps everything but the registers. -/
theorem State.onlyRegistersChange_setV (s : State) (x : Reg) (b : Byte) : OnlyRegistersChange s (s.setV x b) where
  i := s.setV_i x b
  pc := s.setV_pc x b
  stack := s.setV_stack x b
  dt := s.setV_dt x b
  st := s.setV_st x b
  disp := s.setV_disp x b
  halted := s.setV_halted x b
  cause := s.setV_cause x b
  params := s.setV_params x b
  bytes := s.setV_readByte x b

end Sys2Proof.Machine

namespace Sys2Proof.Proofs

open Sys2Proof.Machine

/-- Settles O29: each instruction is one register write, of the immediate and of the 8-bit sum. -/
theorem immediateLoadAndAdd : Obligations.ImmediateLoadAndAdd := by
  intro s x kk
  refine ⟨⟨s.setV x kk, exec_ldByte x kk s, s.getV_setV_same x kk, ?_, s.onlyRegistersChange_setV x kk⟩,
    ⟨s.setV x (s.getV x + kk), exec_addByte x kk s, ?_, ?_, s.onlyRegistersChange_setV x _⟩⟩
  · exact fun r hr => s.getV_setV_ne kk hr
  · rw [s.getV_setV_same]
    exact BitVec.toNat_add (s.getV x) kk
  · exact fun r hr => s.getV_setV_ne _ hr

end Sys2Proof.Proofs

end

/-! # Proofs of the register-register family: ADD (O31), SUB (O32), SUBN (O33), SHR (O34), SHL (O35), LD, OR, AND and
XOR (O30) -/

section

namespace Sys2Proof.Machine

/-! ## The shape of each operation -/

/-- R131: LD Vx, Vy copies the second operand. -/
theorem exec_ldReg (x y : Reg) (s : State) : exec (.ldReg x y) s = combine (fun _ b => b) x y s := rfl

/-- R132: OR Vx, Vy. -/
theorem exec_orReg (x y : Reg) (s : State) : exec (.orReg x y) s = combine (fun a b => a ||| b) x y s := rfl

/-- R133: AND Vx, Vy. -/
theorem exec_andReg (x y : Reg) (s : State) : exec (.andReg x y) s = combine (fun a b => a &&& b) x y s := rfl

/-- R134: XOR Vx, Vy. -/
theorem exec_xorReg (x y : Reg) (s : State) : exec (.xorReg x y) s = combine (fun a b => a ^^^ b) x y s := rfl

/-- R135: ADD reads both operands before it writes VF. -/
theorem exec_addReg (x y : Reg) (s : State) :
    exec (.addReg x y) s =
      .next ((s.setV vf (carryFlag (s.getV x) (s.getV y))).setV x (s.getV x + s.getV y)) := rfl

/-- R136: SUB compares strictly for its flag, then subtracts. -/
theorem exec_subReg (x y : Reg) (s : State) :
    exec (.subReg x y) s = flagThenResult (fun a b => greaterFlag a b) (fun a b => a - b) x y s := rfl

/-- R137: SHR shifts the second operand, not the first. -/
theorem exec_shrReg (x y : Reg) (s : State) :
    exec (.shrReg x y) s = flagThenResult (fun _ b => bottomBit b) (fun _ b => b >>> 1) x y s := rfl

/-- R138: SUBN is SUB with the operands exchanged. -/
theorem exec_subnReg (x y : Reg) (s : State) :
    exec (.subnReg x y) s = flagThenResult (fun a b => greaterFlag b a) (fun a b => b - a) x y s := rfl

/-- R139: SHL shifts the second operand, not the first. -/
theorem exec_shlReg (x y : Reg) (s : State) :
    exec (.shlReg x y) s = flagThenResult (fun _ b => topBit b) (fun _ b => b <<< 1) x y s := rfl

/-! ## The flags and results as numbers -/

theorem bit_decide_toNat (p : Prop) [Decidable p] : (bit (decide p)).toNat = if p then 1 else 0 := by
  by_cases h : p <;> simp [bit, h]

theorem carryFlag_toNat (a b : Byte) : (carryFlag a b).toNat = if a.toNat + b.toNat > 255 then 1 else 0 :=
  bit_decide_toNat _

theorem greaterFlag_toNat (a b : Byte) : (greaterFlag a b).toNat = if a.toNat > b.toNat then 1 else 0 :=
  bit_decide_toNat _

theorem bottomBit_toNat (b : Byte) : (bottomBit b).toNat = b.toNat % 2 := by
  rw [bottomBit, BitVec.toNat_and]
  exact Nat.and_one_is_mod b.toNat

/-- The bit shifted out at the top is the number's share of 128: a byte is below 256, so it is 0 or 1. -/
theorem topBit_toNat (b : Byte) : (topBit b).toNat = b.toNat / 128 := by
  have hshift : (b >>> 7).toNat = b.toNat / 128 := by
    rw [BitVec.toNat_ushiftRight, Nat.shiftRight_eq_div_pow]
  have hlt : b.toNat < 256 := b.isLt
  calc (topBit b).toNat = (b >>> 7).toNat % 2 := bottomBit_toNat (b >>> 7)
    _ = b.toNat / 128 % 2 := by rw [hshift]
    _ = b.toNat / 128 := Nat.mod_eq_of_lt (by omega)

theorem byte_sub_toNat (a b : Byte) : (a - b).toNat = (a.toNat + 256 - b.toNat) % 256 := by
  have hlt : b.toNat < 256 := b.isLt
  rw [BitVec.toNat_sub, show 2 ^ 8 - b.toNat + a.toNat = a.toNat + 256 - b.toNat by omega]

theorem byte_shiftRight_one_toNat (b : Byte) : (b >>> 1).toNat = b.toNat / 2 := by
  rw [BitVec.toNat_ushiftRight, Nat.shiftRight_eq_div_pow, Nat.pow_one]

theorem byte_shiftLeft_one_toNat (b : Byte) : (b <<< 1).toNat = 2 * b.toNat % 256 := by
  rw [BitVec.toNat_shiftLeft, Nat.shiftLeft_eq, Nat.pow_one, Nat.mul_comm]

/-! ## What the shared operations write and keep -/

/-- Replacing the registers keeps everything but the registers. -/
theorem State.onlyRegistersChange_with_v (s : State) (v : Vector Byte numV) :
    OnlyRegistersChange s { s with v := v } where
  i := rfl
  pc := rfl
  stack := rfl
  dt := rfl
  st := rfl
  disp := rfl
  halted := rfl
  cause := rfl
  params := rfl
  bytes := s.with_v_readByte v

/-- The shape of 8xy0 to 8xy3: V[x] is the combination of the old operands, and nothing else changes, VF included. -/
theorem combine_cases (f : Byte → Byte → Byte) (x y : Reg) (s : State) :
    ∃ t, combine f x y s = .next t ∧ t.getV x = f (s.getV x) (s.getV y) ∧
      (∀ r, r ≠ x → t.getV r = s.getV r) ∧ OnlyRegistersChange s t :=
  ⟨_, rfl, s.getV_setV_same x _, fun _ hr => s.getV_setV_ne _ hr, s.onlyRegistersChange_setV x _⟩

/-- A combination that acts on each bit alone leaves in V[x], bit by bit, that operation on the old operands. -/
theorem combine_bitwise {f : Byte → Byte → Byte} {op : Bool → Bool → Bool}
    (hf : ∀ a b k, (f a b).getLsbD k = op (a.getLsbD k) (b.getLsbD k)) (x y : Reg) (s : State) :
    ∃ t, combine f x y s = .next t ∧
      (∀ k : Nat, (t.getV x).getLsbD k = op ((s.getV x).getLsbD k) ((s.getV y).getLsbD k)) ∧
      (∀ r, r ≠ x → t.getV r = s.getV r) ∧ OnlyRegistersChange s t := by
  obtain ⟨t, ht, hx, hkeep, hframe⟩ := combine_cases f x y s
  exact ⟨t, ht, fun k => hx ▸ hf _ _ k, hkeep, hframe⟩

/-- The order of R130 on numbers: when `flagN` and `resultN` say what `flag` and `result` compute, VF gets the flag of the
old operands, and V[x] the result of the operands as they read after that write, VF then reading as the flag. -/
theorem flagThenResult_toNat {flag result : Byte → Byte → Byte} (flagN resultN : Nat → Nat → Nat)
    (hflag : ∀ a b, (flag a b).toNat = flagN a.toNat b.toNat)
    (hresult : ∀ a b, (result a b).toNat = resultN a.toNat b.toNat) (x y : Reg) (s : State) :
    let f := flagN (s.getV x).toNat (s.getV y).toNat
    ∃ t, flagThenResult flag result x y s = .next t ∧
      (t.getV x).toNat =
        resultN (if x = vf then f else (s.getV x).toNat) (if y = vf then f else (s.getV y).toNat) ∧
      (x ≠ vf → (t.getV vf).toNat = f) ∧
      (∀ r, r ≠ x → r ≠ vf → t.getV r = s.getV r) ∧ OnlyRegistersChange s t := by
  obtain ⟨t, ht, hv, hx, hvf, hkeep⟩ := flagThenResult_cases flag result x y s
  refine ⟨t, ht, ?_, fun hne => ?_, hkeep, ?_⟩
  · rw [hx, hresult, apply_ite BitVec.toNat, apply_ite BitVec.toNat, hflag]
  · rw [hvf hne, hflag]
  · rw [hv]
    exact s.onlyRegistersChange_with_v t.v

end Sys2Proof.Machine

namespace Sys2Proof.Proofs

open Sys2Proof.Machine

/-- Settles O31: ADD writes the carry of the old operands to VF and then their sum to V[x]. -/
theorem addSetsCarry : Obligations.AddSetsCarry := by
  intro s x y
  refine ⟨_, exec_addReg x y s, ?_, fun hx => ?_, fun r hrx hrf => ?_, State.onlyRegistersChange_with_v s _⟩
  · rw [State.getV_setV_same]
    exact BitVec.toNat_add (s.getV x) (s.getV y)
  · rw [State.getV_setV_ne _ _ hx.symm]
    exact (congrArg BitVec.toNat (s.getV_setV_same vf _)).trans (carryFlag_toNat _ _)
  · rw [State.getV_setV_ne _ _ hrx]
    exact s.getV_setV_ne _ hrf

/-- Settles O32, by the order of R130 with the strict comparison and the difference. -/
theorem subSetsStrictFlag : Obligations.SubSetsStrictFlag := by
  intro s x y f a b
  rw [exec_subReg]
  exact flagThenResult_toNat (fun m n => if m > n then 1 else 0) (fun m n => (m + 256 - n) % 256)
    greaterFlag_toNat byte_sub_toNat x y s

/-- Settles O33, by the order of R130 with the strict comparison and the difference, operands exchanged. -/
theorem subnSetsStrictFlag : Obligations.SubnSetsStrictFlag := by
  intro s x y f a b
  rw [exec_subnReg]
  exact flagThenResult_toNat (fun m n => if n > m then 1 else 0) (fun m n => (n + 256 - m) % 256)
    (fun a b => greaterFlag_toNat b a) (fun a b => byte_sub_toNat b a) x y s

/-- Settles O34, by the order of R130 with bit 0 and the half of the second operand. -/
theorem shrShiftsY : Obligations.ShrShiftsY := by
  intro s x y f b
  rw [exec_shrReg]
  exact flagThenResult_toNat (fun _ n => n % 2) (fun _ n => n / 2)
    (fun _ => bottomBit_toNat) (fun _ => byte_shiftRight_one_toNat) x y s

/-- Settles O35, by the order of R130 with bit 7 and the double of the second operand. -/
theorem shlShiftsY : Obligations.ShlShiftsY := by
  intro s x y f b
  rw [exec_shlReg]
  exact flagThenResult_toNat (fun _ n => n / 128) (fun _ n => 2 * n % 256)
    (fun _ => topBit_toNat) (fun _ => byte_shiftLeft_one_toNat) x y s

/-- Settles O30: each of the four is a combination of the old operands, and OR, AND and XOR act on each bit alone. -/
theorem copyAndLogic : Obligations.CopyAndLogic := by
  intro s x y
  rw [exec_ldReg, exec_orReg, exec_andReg, exec_xorReg]
  exact ⟨combine_cases _ x y s, combine_bitwise (fun _ _ _ => BitVec.getLsbD_or) x y s,
    combine_bitwise (fun _ _ _ => BitVec.getLsbD_and) x y s, combine_bitwise (fun _ _ _ => BitVec.getLsbD_xor) x y s⟩

end Sys2Proof.Proofs

end

/-! # Proofs of the unimplemented family: UNIMPL_A to UNIMPL_F (O26) -/

section

namespace Sys2Proof.Machine

/-! ## The execute step of each family (R150) -/

/-- R150: UNIMPL_A completes and writes nothing; I is kept. -/
theorem exec_unimplA (addr : Addr) (s : State) : exec (.unimplA addr) s = .next s := rfl

/-- R150: UNIMPL_B completes and writes nothing; pc is kept. -/
theorem exec_unimplB (addr : Addr) (s : State) : exec (.unimplB addr) s = .next s := rfl

/-- R150: UNIMPL_C completes and writes nothing; V[x] is kept. -/
theorem exec_unimplC (x : Reg) (kk : Byte) (s : State) : exec (.unimplC x kk) s = .next s := rfl

/-- R150: UNIMPL_D completes and writes nothing; the display and VF are kept. -/
theorem exec_unimplD (x y : Reg) (z : Nibble) (s : State) : exec (.unimplD x y z) s = .next s := rfl

/-- R150: UNIMPL_E completes and writes nothing. -/
theorem exec_unimplE (x y : Reg) (z : Nibble) (s : State) : exec (.unimplE x y z) s = .next s := rfl

/-- R150: UNIMPL_F completes and writes nothing; the timers, I and memory are kept. -/
theorem exec_unimplF (x y : Reg) (z : Nibble) (s : State) : exec (.unimplF x y z) s = .next s := rfl

/-! ## Every word from 0xA000 -/

/-- R150: the words from 0xA000 are those of families 0xA to 0xF, and executing any of them changes nothing, under either
ZERO_DISPATCH. -/
theorem exec_decode_of_unimplemented {w : Word} (hw : 0xA000 ≤ w.toNat) (m : ZeroDispatch) (s : State) :
    exec (decode m w) s = .next s := by
  have hfam : 0xA ≤ (family w).toNat := by rw [family_toNat]; omega
  rcases decode_cases m w with
    ⟨hf, -⟩ | ⟨hf, -⟩ | ⟨hf, -⟩ | ⟨hf, -⟩ | ⟨hf, -⟩ | ⟨hf, -⟩ | ⟨hf, -⟩ | ⟨hf, -⟩ | ⟨hf, -⟩ | ⟨hf, -⟩ |
    ⟨-, e⟩ | ⟨-, e⟩ | ⟨-, e⟩ | ⟨-, e⟩ | ⟨-, e⟩ | ⟨-, e⟩
  -- Families 0x0 to 0x9 lie below 0xA000.
  iterate 10 exact absurd hfam (by rw [hf]; decide)
  · rw [e, exec_unimplA]
  · rw [e, exec_unimplB]
  · rw [e, exec_unimplC]
  · rw [e, exec_unimplD]
  · rw [e, exec_unimplE]
  · rw [e, exec_unimplF]

/-- R93: an execute step that changes nothing leaves the cycle of a running block only the advance. -/
theorem finishCycle_next_of_running {s : State} (hr : s.Running) : finishCycle (.next s) = .next s.advance := by
  rw [finishCycle_next, if_neg (ne_true_of_eq_false hr)]

end Sys2Proof.Machine

namespace Sys2Proof.Proofs

open Sys2Proof.Machine

/-- Settles O26: each family's execute step is the identity, and every word from 0xA000 is of one of the six families, so
its cycle is the advance alone. -/
theorem unimplementedFamiliesChangeNothing : Obligations.UnimplementedFamiliesChangeNothing := by
  refine ⟨fun s addr x y z kk => ?_, fun s hr hf hw => ?_⟩
  · exact ⟨exec_unimplA addr s, exec_unimplB addr s, exec_unimplC x kk s, exec_unimplD x y z s,
      exec_unimplE x y z s, exec_unimplF x y z s⟩
  · calc step s = finishCycle (exec s.instrAtPc s) := step_of_fetchable hr hf
      _ = finishCycle (.next s) := congrArg finishCycle (exec_decode_of_unimplemented hw _ s)
      _ = .next s.advance := finishCycle_next_of_running hr

end Sys2Proof.Proofs

end

/-! # Proofs of the other family, the decoder: round trip of instructions (O7) and of words (O8), the examples (O10),
family 0x0 (O11), the ignored selector (O12), SYS and UNIMPL_8 (O25) -/

section

namespace Sys2Proof

/-! ## Decoding the word of an instruction -/

/-- R75: a word of family 0x0 is dispatched by its address. -/
theorem decode_formatA_zero (m : ZeroDispatch) (addr : Addr) : decode m (formatA 0x0 addr) = decodeZero m addr := by
  simp [decode]

/-- R76: a word of family 0x8 is dispatched by its selector. -/
theorem decode_formatXYZ_eight (m : ZeroDispatch) (x y : Reg) (z : Nibble) :
    decode m (formatXYZ 0x8 x y z) = decodeEight x y z := by
  simp [decode]

/-- R112: the word of SE Vx, Vy. -/
theorem decode_formatXYZ_five (m : ZeroDispatch) (x y : Reg) (z : Nibble) :
    decode m (formatXYZ 0x5 x y z) = .seReg x y z := by
  simp [decode]

/-- R113: the word of SNE Vx, Vy. -/
theorem decode_formatXYZ_nine (m : ZeroDispatch) (x y : Reg) (z : Nibble) :
    decode m (formatXYZ 0x9 x y z) = .sneReg x y z := by
  simp [decode]

/-- R76: a selector without a row of its own is UNIMPL_8. -/
theorem decodeEight_of_not_aluSelector (x y : Reg) {z : Nibble} (hz : isAluSelector z = false) :
    decodeEight x y z = .unimpl8 x y z := by
  rcases decodeEight_cases x y z with
    ⟨rfl, -⟩ | ⟨rfl, -⟩ | ⟨rfl, -⟩ | ⟨rfl, -⟩ | ⟨rfl, -⟩ | ⟨rfl, -⟩ | ⟨rfl, -⟩ | ⟨rfl, -⟩ | ⟨rfl, -⟩ | ⟨-, e⟩
  -- The nine selectors with a row of their own.
  iterate 9 cases hz
  exact e

/-- R78: the decoder gives every well-formed instruction back from its word. -/
theorem decode_encode {m : ZeroDispatch} {i : Instr} (hwf : i.wf m = true) : decode m (encode i) = i := by
  cases i with
  | cls | ret =>
    cases m with
    | compare => rfl
    | asBuilt => cases hwf
  | sys addr =>
    cases m with
    | compare =>
      have hne : addr ≠ clsAddr ∧ addr ≠ retAddr := by simpa [Instr.wf] using hwf
      exact (decode_formatA_zero _ addr).trans ((if_neg hne.1).trans (if_neg hne.2))
    | asBuilt => cases hwf
  | clsAsBuilt addr =>
    cases m with
    | compare => cases hwf
    | asBuilt => exact decode_formatA_zero _ addr
  | unimpl8 x y z =>
    have hz : isAluSelector z = false := by simpa [Instr.wf] using hwf
    exact (decode_formatXYZ_eight m x y z).trans (decodeEight_of_not_aluSelector x y hz)
  | ldReg x y | orReg x y | andReg x y | xorReg x y | addReg x y | subReg x y | shrReg x y | subnReg x y | shlReg x y =>
    exact decode_formatXYZ_eight m x y _
  -- Every other family has one instruction, built from the fields of its format.
  | _ => simp [decode, encode]

/-- R58, R70: the decoder takes the two bytes of a word off the front of the sequence. -/
theorem decodeBytes_word (m : ZeroDispatch) (w : Word) (rest : List Byte) :
    decodeBytes m (hiByte w :: loByte w :: rest) = .ok (decode m w, rest) := by
  rw [decodeBytes, wordOfBytes_hiByte_loByte]

end Sys2Proof

namespace Sys2Proof.Machine

/-- R102: SYS completes and writes nothing. -/
theorem exec_sys (addr : Addr) (s : State) : exec (.sys addr) s = .next s := rfl

/-- R140: UNIMPL_8 completes and writes nothing. -/
theorem exec_unimpl8 (x y : Reg) (z : Nibble) (s : State) : exec (.unimpl8 x y z) s = .next s := rfl

end Sys2Proof.Machine

namespace Sys2Proof.Proofs

open Sys2Proof.Machine

/-- Settles O7: the fields of each format are those it was built from, and the families 0x0 and 0x8 dispatch on them. -/
theorem decodeEncodeAgree : Obligations.DecodeEncodeAgree := by
  intro m i hwf
  refine ⟨decode_encode hwf, fun rest => ?_⟩
  calc decodeBytes m (encodeBytes i ++ rest) = .ok (decode m (encode i), rest) := decodeBytes_word m (encode i) rest
    _ = .ok (i, rest) := by rw [decode_encode hwf]

/-- Settles O8, by the family of the word. -/
theorem everyWordDecodes : Obligations.EveryWordDecodes := by
  intro m w
  exact ⟨decode_wf m w, encode_decode m w⟩

/-- Settles O10, by running the decoder on the six words. -/
theorem encodingExamplesDecode : Obligations.EncodingExamplesDecode := by
  refine ⟨fun m => ?_, rfl, rfl, rfl⟩
  cases m with
  | compare => exact ⟨rfl, rfl, rfl, rfl⟩
  | asBuilt => exact ⟨rfl, rfl, rfl, rfl⟩

/-- Settles O11: a word of family 0x0 is dispatched by mode and address, and SYS changes nothing. -/
theorem zeroFamilyDispatch : Obligations.ZeroFamilyDispatch := by
  intro addr s
  simp only [decode_formatA_zero]
  refine ⟨exec_clsAsBuilt addr s, fun h => if_pos h, fun h => ?_, fun hcls hret => ?_⟩
  · rw [h]
    rfl
  · have hsys : decodeZero .compare addr = .sys addr := (if_neg hcls).trans (if_neg hret)
    rw [hsys]
    exact ⟨rfl, exec_sys addr s⟩

/-- Settles O12: the selector reaches the skip as an operand that it ignores. -/
theorem skipsIgnoreSelector : Obligations.SkipsIgnoreSelector := by
  intro m x y z s
  simp only [decode_formatXYZ_five, decode_formatXYZ_nine, exec_seReg, exec_sneReg, and_self]

/-- Settles O25: both execute steps are the identity. -/
theorem unlistedWordsChangeNothing : Obligations.UnlistedWordsChangeNothing := by
  intro s addr x y z
  exact ⟨exec_sys addr s, exec_unimpl8 x y z s⟩

end Sys2Proof.Proofs

end

/-! # Proofs of the other family, the cycle: its fatal conditions (O16, O17, O18), what it never writes (O38), pc after
it (O20) -/

section

namespace Sys2Proof.Machine

/-! ## The two ways a cycle of a running block ends -/

/-- The fatal condition a cycle from the state raises, in the order of the checks (R166): the pc check, the fetch, and
the execute steps of CALL and RET. -/
inductive State.Raises (s : State) : Cause → Prop where
  | pcCheck : 0x1000 ≤ s.pc.toNat → s.Raises .programCounterOutOfRange
  | fetch : s.pc.toNat = 0xFFF → s.Raises .memoryOutOfRange
  | call : s.Fetchable → (∃ addr, s.instrAtPc = .call addr) → s.sp = s.stackCap → s.Raises .stackOverflow
  | ret : s.Fetchable → s.instrAtPc = .ret → s.sp = 0 → s.Raises .stackUnderflow

/-- A cycle from `s` gets through its execute step, which leaves `u`; the uniform advance is still to come. -/
structure State.Completes (s u : State) : Prop where
  running : s.Running
  fetchable : s.Fetchable
  exec : exec s.instrAtPc s = .next u
  runningAfter : u.Running
  cause : u.cause = s.cause

theorem State.Raises.ne_none {s : State} {c : Cause} (h : s.Raises c) : c ≠ .none := by
  cases h <;> decide

theorem State.raises_programCounterOutOfRange_iff (s : State) :
    s.Raises .programCounterOutOfRange ↔ 0x1000 ≤ s.pc.toNat := by
  refine ⟨fun h => ?_, .pcCheck⟩
  cases h with
  | pcCheck hpc => exact hpc

theorem State.raises_memoryOutOfRange_iff (s : State) : s.Raises .memoryOutOfRange ↔ s.pc.toNat = 0xFFF := by
  refine ⟨fun h => ?_, .fetch⟩
  cases h with
  | fetch hpc => exact hpc

/-- A fatal condition ends the cycle in the halted state, and no advance follows (R97). -/
theorem step_of_raises {s : State} {c : Cause} (hr : s.Running) (h : s.Raises c) : step s = .next (s.halt c) := by
  cases h with
  | pcCheck hpc =>
    have hcheck : s.checkPc = .error .programCounterOutOfRange := if_pos hpc
    rw [step_of_running hr, cycle, hcheck]
    rfl
  | fetch hpc =>
    have hcheck : s.checkPc = .ok () := if_neg (by omega)
    have hfetch : s.fetch = .error .memoryOutOfRange := by
      rw [State.fetch_eq, if_neg (by simp only [State.Fetchable]; omega)]
    rw [step_of_running hr, cycle, hcheck, hfetch]
    rfl
  | call hf hi hfull =>
    obtain ⟨addr, hi⟩ := hi
    rcases execCall_cases addr s with ⟨-, e⟩ | ⟨hroom, -⟩
    · rw [step_of_fetchable hr hf, hi, show exec (.call addr) s = execCall addr s from rfl, e]
      rfl
    · exact absurd hfull (Nat.ne_of_lt hroom)
  | ret hf hi hempty =>
    rcases execRet_cases s with ⟨-, e⟩ | ⟨hne, -⟩
    · rw [step_of_fetchable hr hf, hi, show exec .ret s = execRet s from rfl, e]
      rfl
    · exact absurd hempty hne

/-- A completed execute step is followed by the uniform advance (R93). -/
theorem State.Completes.step {s u : State} (h : s.Completes u) : step s = .next u.advance := by
  rw [step_of_fetchable h.running h.fetchable, h.exec, finishCycle_next_of_running h.runningAfter]

theorem State.completes_of_not_raises {s : State} (hr : s.Running) (h : ∀ c, ¬ s.Raises c) : ∃ u, s.Completes u := by
  have hpc : ¬ 0x1000 ≤ s.pc.toNat := fun hpc => h _ (.pcCheck hpc)
  have hfff : s.pc.toNat ≠ 0xFFF := fun hpc => h _ (.fetch hpc)
  have hf : s.Fetchable := by simp only [State.Fetchable]; omega
  obtain ⟨u, hu, ⟨hhalted, hcause, -, -⟩ | ⟨-, hi, hfull⟩ | ⟨-, hi, hempty⟩⟩ := exec_fatal_cases s.instrAtPc s
  · exact ⟨u, hr, hf, hu, hhalted.trans hr, hcause⟩
  · exact absurd (.call hf hi hfull) (h _)
  · exact absurd (.ret hf hi hempty) (h _)

/-- A cycle raises a fatal condition or completes. -/
theorem State.raises_or_completes {s : State} (hr : s.Running) : (∃ c, s.Raises c) ∨ ∃ u, s.Completes u := by
  by_cases h : ∃ c, s.Raises c
  · exact .inl h
  · exact .inr (completes_of_not_raises hr (not_exists.mp h))

/-- R41: a halted block stays as it is. -/
theorem step_of_halted {s : State} (h : s.halted = true) : step s = .next s := if_pos h

/-- Every step answers a next state: the state itself when halted, and otherwise the halted or the advanced one. -/
theorem step_total (s : State) : ∃ t, step s = .next t := by
  by_cases hh : s.halted = true
  · exact ⟨s, step_of_halted hh⟩
  · have hr : s.Running := Bool.eq_false_iff.mpr hh
    rcases State.raises_or_completes hr with ⟨c, hc⟩ | ⟨u, hu⟩
    · exact ⟨_, step_of_raises hr hc⟩
    · exact ⟨_, hu.step⟩

/-- Everything a step can do, by its outcome. -/
theorem step_outcomes {s t : State} (h : step s = .next t) :
    (s.halted = true ∧ t = s) ∨ (s.Running ∧ ∃ c, s.Raises c ∧ t = s.halt c) ∨
    ∃ u, s.Completes u ∧ t = u.advance := by
  by_cases hh : s.halted = true
  · cases (step_of_halted hh).symm.trans h
    exact .inl ⟨hh, rfl⟩
  · have hr : s.Running := Bool.eq_false_iff.mpr hh
    rcases State.raises_or_completes hr with ⟨c, hc⟩ | ⟨u, hu⟩
    · cases (step_of_raises hr hc).symm.trans h
      exact .inr (.inl ⟨hr, c, hc, rfl⟩)
    · cases hu.step.symm.trans h
      exact .inr (.inr ⟨u, hu, rfl⟩)

/-- A step that leaves a running block halted raised a fatal condition. -/
theorem raises_of_step_halted {s t : State} (hr : s.Running) (h : step s = .next t) (hh : t.halted = true) :
    ∃ c, s.Raises c ∧ t = s.halt c := by
  rcases step_outcomes h with ⟨hs, -⟩ | ⟨-, hraise⟩ | ⟨u, hu, rfl⟩
  · exact absurd hs (ne_true_of_eq_false hr)
  · exact hraise
  · exact absurd hh (ne_true_of_eq_false hu.runningAfter)

/-- A step that leaves the block running completed its cycle. -/
theorem completes_of_step_running {s t : State} (h : step s = .next t) (hh : t.Running) :
    ∃ u, s.Completes u ∧ t = u.advance := by
  rcases step_outcomes h with ⟨hs, rfl⟩ | ⟨-, c, -, rfl⟩ | hdone
  · exact absurd hs (ne_true_of_eq_false hh)
  · cases hh
  · exact hdone

/-- The cause that a step of a running block records is the one its cycle raises. -/
theorem haltedWith_step_iff {s t : State} (hr : s.Running) (h : step s = .next t) (c : Cause) :
    HaltedWith c s t ↔ s.Raises c := by
  constructor
  · intro hw
    obtain ⟨c', hc', rfl⟩ := raises_of_step_halted hr h hw.halted
    cases hw.cause
    exact hc'
  · intro hc
    cases (step_of_raises hr hc).symm.trans h
    exact s.haltedWith_halt c

/-! ## The trace record of a step -/

/-- R45: the record of the two bytes at pc and the registers the cycle left, if tracing is on and the cycle completed. -/
theorem State.trace_of_step {s t : State} (h : step s = .next t) :
    s.trace = if s.params.traceEnable = true ∧ s.Running ∧ t.Running then
      some { first := s.readByte s.pc.toNat, second := s.readByte (s.pc.toNat + 1), regs := t.v } else none := by
  rw [State.trace, h]
  rcases step_outcomes h with ⟨hh, -⟩ | ⟨hr, c, -, rfl⟩ | ⟨u, hu, rfl⟩
  · have hoff : ¬ (s.params.traceEnable && !s.halted) = true := by simp [hh]
    have hnot : ¬ (s.params.traceEnable = true ∧ s.Running ∧ t.Running) := by
      rintro ⟨-, hrun, -⟩
      exact absurd hh (ne_true_of_eq_false hrun)
    exact (if_neg hoff).trans (if_neg hnot).symm
  · cases s.fetch <;> simp
  · rw [State.fetch_of_fetchable hu.fetchable]
    simp [State.Running, hu.running, hu.runningAfter, State.wordAtPc]

/-! ## What no step writes -/

/-- Nothing of I, the timers, memory, the parameters or STACK_CAP changes, and the display at most becomes clear. -/
structure StepFrame (s t : State) : Prop where
  i : t.i = s.i
  dt : t.dt = s.dt
  st : t.st = s.st
  mem : t.mem = s.mem
  params : t.params = s.params
  stackCap : t.stackCap = s.stackCap
  disp : t.disp = s.disp ∨ t.disp = Display.clear

/-- Any change of registers, pc, stack, halted and cause is within the frame, if it keeps STACK_CAP. -/
theorem StepFrame.of_stackCap {s t : State} (ht : t = { s with
    v := t.v, pc := t.pc, stack := t.stack, halted := t.halted, cause := t.cause }) (hcap : t.stackCap = s.stackCap) :
    StepFrame s t := by
  refine ⟨?_, ?_, ?_, ?_, ?_, hcap, .inl ?_⟩ <;> rw [ht]

theorem StepFrame.refl (s : State) : StepFrame s s := .of_stackCap rfl rfl

theorem StepFrame.halt (s : State) (c : Cause) : StepFrame s (s.halt c) := .of_stackCap rfl rfl

theorem StepFrame.advance {s u : State} (h : StepFrame s u) : StepFrame s u.advance :=
  ⟨h.i, h.dt, h.st, h.mem, h.params, h.stackCap, h.disp⟩

/-- STACK_CAP is no operand of an instruction: CALL and RET change SP and slots only. -/
theorem exec_stackCap {i : Instr} {s u : State} (h : exec i s = .next u) : u.stackCap = s.stackCap := by
  rcases exec_shape h with ⟨hu, -⟩ | ⟨-, hu | hu | ⟨c, hu⟩ | ⟨hi, -⟩⟩
  iterate 4 exact (congrArg State.stackCap hu).trans rfl
  rcases hi with rfl | ⟨addr, rfl⟩
  · rcases execRet_cases s with ⟨-, e⟩ | ⟨-, x, k, -, hcap, -, -, e⟩
    · cases e.symm.trans h; rfl
    · cases e.symm.trans h; exact hcap
  · rcases execCall_cases addr s with ⟨-, e⟩ | ⟨-, k, hcap, -, -, -, e⟩
    · cases e.symm.trans h; rfl
    · cases e.symm.trans h; exact hcap

theorem exec_frame {i : Instr} {s u : State} (h : exec i s = .next u) : StepFrame s u := by
  have hcap := exec_stackCap h
  rcases exec_shape h with ⟨hu, -⟩ | ⟨-, hu | hu | ⟨c, hu⟩ | ⟨-, hu⟩⟩
  · exact .of_stackCap (by rw [hu]) hcap
  · exact .of_stackCap (by rw [hu]) hcap
  · rw [hu]
    exact ⟨rfl, rfl, rfl, rfl, rfl, rfl, .inr rfl⟩
  · rw [hu]
    exact .halt s c
  · exact .of_stackCap (by rw [hu]) hcap

theorem step_frame {s t : State} (h : step s = .next t) : StepFrame s t := by
  rcases step_outcomes h with ⟨-, rfl⟩ | ⟨-, c, -, rfl⟩ | ⟨u, hu, rfl⟩
  · exact .refl t
  · exact .halt s c
  · exact (exec_frame hu.exec).advance

/-- What a byte reads as is a matter of memory and the font. -/
theorem State.readByte_congr {s t : State} (hmem : t.mem = s.mem) (hparams : t.params = s.params) (a : Nat) :
    t.readByte a = s.readByte a := by
  rw [State.readByte, hmem, hparams, State.readByte]

theorem State.pixel_of_disp_clear {s : State} (h : s.disp = Display.clear) (col : Fin displayW) (row : Fin displayH) :
    s.pixel col row = 0 := by
  rw [State.pixel, h]
  exact s.pixel_clearDisplay col row

theorem State.pixel_congr {s t : State} (h : t.disp = s.disp) (col : Fin displayW) (row : Fin displayH) :
    t.pixel col row = s.pixel col row := by
  rw [State.pixel, h, State.pixel]

/-! ## pc after a skip -/

/-- R95, R98: a skip and the uniform advance add 4 to pc when the condition holds, and 2 otherwise. -/
theorem skipIf_advance_pc {c : Bool} {p : Prop} [Decidable p] (hcp : c = true ↔ p) {s u : State}
    (h : skipIf c s = .next u) : u.advance.pc = if p then s.pc + 4 else s.pc + 2 := by
  cases (skipIf_eq_ite hcp s).symm.trans h
  by_cases hp : p
  · rw [if_pos hp, if_pos hp]
    exact BitVec.add_assoc s.pc 2 2
  · rw [if_neg hp, if_neg hp]
    rfl

end Sys2Proof.Machine

namespace Sys2Proof.Proofs

open Sys2Proof.Machine

/-- Settles O16: what a step records is what its cycle raises, and only the pc check and the fetch raise these two. -/
theorem pcCheckAndFetchFaults : Obligations.PcCheckAndFetchFaults := by
  intro s hr
  obtain ⟨t, ht⟩ := step_total s
  exact ⟨t, ht, (haltedWith_step_iff hr ht _).trans s.raises_programCounterOutOfRange_iff,
    (haltedWith_step_iff hr ht _).trans s.raises_memoryOutOfRange_iff⟩

/-- Settles O17: each of the first four clauses raises its cause; in the last one no cause is left to raise. -/
theorem fatalCausesInOrder : Obligations.FatalCausesInOrder := by
  intro s hr
  obtain ⟨t, ht⟩ := step_total s
  have status_of_raises {c : Cause} (hc : s.Raises c) : t.status = { halted := true, code := c.code } := by
    cases (step_of_raises hr hc).symm.trans ht
    rfl
  refine ⟨t, ht, fun hpc => status_of_raises (.pcCheck hpc), fun hpc => status_of_raises (.fetch hpc),
    fun hf hi hfull => status_of_raises (.call hf hi hfull), fun hf hi hempty => status_of_raises (.ret hf hi hempty),
    fun hf hcall hret => ?_⟩
  have hno : ∀ c, ¬ s.Raises c := by
    simp only [State.Fetchable] at hf
    intro c hc
    cases hc with
    | pcCheck hpc => omega
    | fetch hpc => omega
    | call _ hi hfull => exact hcall ⟨hi, hfull⟩
    | ret _ hi hempty => exact hret ⟨hi, hempty⟩
  obtain ⟨u, hu⟩ := State.completes_of_not_raises hr hno
  cases hu.step.symm.trans ht
  exact ⟨hu.runningAfter, hu.cause⟩

/-- Settles O18: the step halted by raising a cause, which writes nothing but halted and cause. -/
theorem fatalConditionsArePrecise : Obligations.FatalConditionsArePrecise := by
  intro s t hr ht hh
  obtain ⟨c, hc, rfl⟩ := raises_of_step_halted hr ht hh
  refine ⟨hc.ne_none, s.haltedWith_halt c, ?_⟩
  rw [State.trace_of_step ht, if_neg]
  rintro ⟨-, -, hrun⟩
  cases hrun

/-- Settles O20, by the instruction whose execute step completed. -/
theorem netEffectOnPc : Obligations.NetEffectOnPc := by
  intro s t hr hf ht hh
  obtain ⟨u, hu, rfl⟩ := completes_of_step_running ht hh
  have hexec := hu.exec
  have hrun := hu.runningAfter
  generalize s.instrAtPc = i at hexec
  cases i with
  | jp addr =>
    cases hexec
    exact preAdjusted_advance_toNat addr
  | call addr =>
    rcases execCall_cases addr s with ⟨-, e⟩ | ⟨-, k, -, -, -, -, e⟩ <;> cases e.symm.trans hexec
    · cases hrun
    · exact preAdjusted_advance_toNat addr
  | ret =>
    rcases execRet_cases s with ⟨-, e⟩ | ⟨-, x, k, htop, -, -, -, e⟩ <;> cases e.symm.trans hexec
    · cases hrun
    · exact ⟨x, htop, rfl⟩
  | seByte x kk => exact skipIf_advance_pc beq_iff_eq hexec
  | sneByte x kk => exact skipIf_advance_pc bne_iff_ne hexec
  | seReg x y z => exact skipIf_advance_pc beq_iff_eq hexec
  | sneReg x y z => exact skipIf_advance_pc bne_iff_ne hexec
  | _ =>
    cases hexec
    rfl

/-- Settles O38: the frame of a step, with bytes and cells read through it. -/
theorem stepNeverWritesIndexTimersMemory : Obligations.StepNeverWritesIndexTimersMemory := by
  intro s
  obtain ⟨t, ht⟩ := step_total s
  have hframe := step_frame ht
  exact ⟨t, ht, hframe.i, hframe.dt, hframe.st, State.readByte_congr hframe.mem hframe.params, hframe.mem,
    hframe.params, hframe.stackCap, hframe.disp.imp State.pixel_congr State.pixel_of_disp_clear⟩

end Sys2Proof.Proofs

end

/-! # Proofs of the other family, the call stack: as_built (O39), the step's invariants (O40), the call and return law
(O45) -/

section

namespace Sys2Proof.Machine

/-! ## What a step does to the call stack -/

/-- The instruction of a cycle that completes is the one the state runs. -/
theorem State.Completes.runs {s u : State} (h : s.Completes u) : s.Runs s.instrAtPc := ⟨h.running, h.fetchable, rfl⟩

theorem step_of_runs {s : State} {i : Instr} (h : s.Runs i) : step s = finishCycle (exec i s) := by
  rw [step_of_fetchable h.running h.fetchable, h.instr]

/-- The call of R104 with its advance: SP is one higher and the new top is the CALL's own address. -/
structure Pushes (s t : State) : Prop where
  running : t.Running
  room : s.sp < s.stackCap
  sp : t.sp = s.sp + 1
  top : t.slot? s.sp = some s.pc
  below : ∀ j, j ≠ s.sp → t.slot? j = s.slot? j

/-- The return of R101 with its advance: SP is one lower, no slot changes and pc is two past the old top. -/
structure Pops (s t : State) : Prop where
  running : t.Running
  sp : t.sp + 1 = s.sp
  pc : ∃ x, s.slot? (s.sp - 1) = some x ∧ t.pc = x + 2
  slots : ∀ j, t.slot? j = s.slot? j

/-- R104: a CALL below capacity completes. -/
theorem pushes_of_runs_call {s t : State} {addr : Addr} (hs : s.Runs (.call addr)) (hroom : s.sp < s.stackCap)
    (h : step s = .next t) : Pushes s t := by
  obtain ⟨u, hu, htop, hbelow, hsp, -, hframe⟩ := (Proofs.callPushesItsAddress s addr).1 hroom
  have hrun : u.Running := hframe.halted.trans hs.running
  rw [step_of_runs hs, hu, finishCycle_next_of_running hrun] at h
  cases h
  exact ⟨hrun, hroom, hsp, htop, hbelow⟩

/-- R101: a RET on a stack with an entry completes. -/
theorem pops_of_runs_ret {s t : State} (hs : s.Runs .ret) (hne : s.sp ≠ 0) (h : step s = .next t) : Pops s t := by
  obtain ⟨u, hu, htop, hsp, hslots, hframe⟩ := (Proofs.retPopsThePc s).1 hne
  have hrun : u.Running := hframe.halted.trans hs.running
  rw [step_of_runs hs, hu, finishCycle_next_of_running hrun] at h
  cases h
  exact ⟨hrun, hsp, ⟨u.pc, htop, rfl⟩, hslots⟩

/-- A CALL that leaves the block running had room on the stack. -/
theorem pushes_of_running {s t : State} {addr : Addr} (hs : s.Runs (.call addr)) (h : step s = .next t)
    (ht : t.Running) : Pushes s t := by
  refine pushes_of_runs_call hs (Nat.lt_of_le_of_ne s.sp_le_stackCap fun hfull => ?_) h
  cases (step_of_raises hs.running (.call hs.fetchable ⟨addr, hs.instr⟩ hfull)).symm.trans h
  cases ht

/-- A RET that leaves the block running had an entry to pop. -/
theorem pops_of_running {s t : State} (hs : s.Runs .ret) (h : step s = .next t) (ht : t.Running) : Pops s t := by
  refine pops_of_runs_ret hs (fun hempty => ?_) h
  cases (step_of_raises hs.running (.ret hs.fetchable hs.instr hempty)).symm.trans h
  cases ht

/-- The execute step of an instruction other than CALL and RET leaves the stack. -/
theorem exec_stack_of_not_call_ret {i : Instr} {s u : State} (h : exec i s = .next u) (hcall : i.isCall = false)
    (hret : i.isRet = false) : u.stack = s.stack := by
  rcases exec_shape h with ⟨hu, -⟩ | ⟨-, hu | hu | ⟨c, hu⟩ | ⟨hi, -⟩⟩
  iterate 4 exact (congrArg State.stack hu).trans rfl
  rcases hi with rfl | ⟨addr, rfl⟩
  · cases hret
  · cases hcall

/-- Everything a step can do to the stack: nothing, one call or one return. -/
theorem step_stack_cases {s t : State} (h : step s = .next t) :
    t.stack = s.stack ∨ (∃ addr, s.Runs (.call addr)) ∧ Pushes s t ∨ s.Runs .ret ∧ Pops s t := by
  rcases step_outcomes h with ⟨-, rfl⟩ | ⟨-, c, -, rfl⟩ | ⟨u, hu, rfl⟩
  · exact .inl rfl
  · exact .inl rfl
  · have hruns := hu.runs
    have hexec := hu.exec
    generalize s.instrAtPc = i at hruns hexec
    cases i with
    | call addr => exact .inr (.inl ⟨⟨addr, hruns⟩, pushes_of_running hruns h hu.runningAfter⟩)
    | ret => exact .inr (.inr ⟨hruns, pops_of_running hruns h hu.runningAfter⟩)
    | _ =>
      have hstack : u.stack = s.stack := exec_stack_of_not_call_ret hexec rfl rfl
      exact .inl hstack

theorem State.sp_congr {s t : State} (h : t.stack = s.stack) : t.sp = s.sp := by
  rw [State.sp, h, State.sp]

theorem State.slot?_congr {s t : State} (h : t.stack = s.stack) (j : Nat) : t.slot? j = s.slot? j := by
  rw [State.slot?, h, State.slot?]

/-! ## No RET under `as_built` -/

/-- R75: RET has no word under `as_built`. -/
theorem State.instrAtPc_ne_ret {s : State} (hmode : s.params.zeroDispatch = .asBuilt) : s.instrAtPc ≠ .ret := by
  intro hi
  have hwf : (Instr.ret).wf .asBuilt = true := by
    rw [← hi, State.instrAtPc, hmode]
    exact decode_wf .asBuilt s.wordAtPc
  cases hwf

/-! ## The invariants of a step -/

theorem State.Inv.step {s t : State} (hs : s.Inv) (h : step s = .next t) : t.Inv := by
  have hframe := step_frame h
  have hwf : t.memWf := by
    rw [State.memWf, hframe.mem, hframe.params]
    exact hs.memWf
  rcases step_outcomes h with ⟨-, rfl⟩ | ⟨-, c, hc, rfl⟩ | ⟨u, hu, rfl⟩
  · exact hs
  · exact ⟨hwf, iff_of_true rfl hc.ne_none, by cases hc <;> simp⟩
  · have hcause : u.advance.cause = s.cause := hu.cause
    refine ⟨hwf, ?_, ?_⟩
    · rw [hcause, ← hs.haltedIffCause, hu.running, u.advance_halted, hu.runningAfter]
    · rw [hcause]
      exact hs.causeRaised

/-- R114: from a fetchable pc a cycle gets at most 4 further. -/
theorem toNat_skip_le {p q : Word} {c : Prop} [Decidable c] (hp : p.toNat + 1 < 0x1000)
    (hq : q = if c then p + 4 else p + 2) : q.toNat ≤ 0x1002 := by
  subst hq
  split <;> bv_omega

/-- pc stays in its bound: by the instruction, as R98 gives pc. -/
theorem State.CodeBounds.step_pc {s t : State} (hs : s.CodeBounds) (h : step s = .next t) : t.pc.toNat ≤ 0x1002 := by
  rcases step_outcomes h with ⟨-, rfl⟩ | ⟨-, c, -, rfl⟩ | ⟨u, hu, rfl⟩
  · exact hs.pcBound
  · exact hs.pcBound
  · have hf : s.pc.toNat + 1 < 0x1000 := hu.fetchable
    have hpc := Proofs.netEffectOnPc s u.advance hu.running hu.fetchable h hu.runningAfter
    have hruns := hu.runs
    generalize s.instrAtPc = i at hpc hruns
    cases i with
    | jp addr => exact hpc ▸ Nat.le_of_lt (Nat.lt_trans addr.isLt (by decide))
    | call addr => exact hpc ▸ Nat.le_of_lt (Nat.lt_trans addr.isLt (by decide))
    | ret =>
      obtain ⟨x, htop, hx⟩ := hpc
      have hsp := (pops_of_running hruns h hu.runningAfter).sp
      have hbound : x.toNat ≤ 0xFFE := hs.stackBound (s.sp - 1) x (by omega) htop
      rw [hx]
      bv_omega
    | seByte x kk => exact toNat_skip_le hf hpc
    | sneByte x kk => exact toNat_skip_le hf hpc
    | seReg x y z => exact toNat_skip_le hf hpc
    | sneReg x y z => exact toNat_skip_le hf hpc
    | _ =>
      change u.advance.pc = s.pc + 2 at hpc
      rw [hpc]
      bv_omega

/-- The saved pcs stay in their bound: a call adds the address of a fetched CALL, a return only takes one off. -/
theorem State.CodeBounds.step_stack {s t : State} (hs : s.CodeBounds) (h : step s = .next t) :
    ∀ j x, j < t.sp → t.slot? j = some x → x.toNat ≤ 0xFFE := by
  intro j x hj hx
  rcases step_stack_cases h with hstack | ⟨⟨addr, hcall⟩, hpush⟩ | ⟨-, hpop⟩
  · rw [State.sp_congr hstack] at hj
    rw [State.slot?_congr hstack] at hx
    exact hs.stackBound j x hj hx
  · by_cases hjs : j = s.sp
    · rw [hjs, hpush.top] at hx
      cases hx
      have hf : s.pc.toNat + 1 < 0x1000 := hcall.fetchable
      omega
    · rw [hpush.below j hjs] at hx
      rw [hpush.sp] at hj
      exact hs.stackBound j x (by omega) hx
  · rw [hpop.slots] at hx
    exact hs.stackBound j x (by have := hpop.sp; omega) hx

/-! ## Balanced runs -/

/-- SP and the entries in use are as before. -/
structure LiveStackKept (s t : State) : Prop where
  sp : t.sp = s.sp
  live : ∀ j, j < s.sp → t.slot? j = s.slot? j

theorem LiveStackKept.refl (s : State) : LiveStackKept s s := ⟨rfl, fun _ _ => rfl⟩

theorem LiveStackKept.of_stack {s t : State} (h : t.stack = s.stack) : LiveStackKept s t :=
  ⟨State.sp_congr h, fun j _ => State.slot?_congr h j⟩

theorem LiveStackKept.trans {s t u : State} (h : LiveStackKept s t) (h' : LiveStackKept t u) : LiveStackKept s u :=
  ⟨h'.sp.trans h.sp, fun j hj => (h'.live j (h.sp.symm ▸ hj)).trans (h.live j hj)⟩

/-- A call, a run that keeps the entries in use, and a return: the return finds the CALL's address on top, and leaves
the entries in use before the call as they were. -/
theorem pops_of_pushes {s t u w : State} (hcall : Pushes s t) (hbody : LiveStackKept t u) (hret : u.Runs .ret)
    (h : step u = .next w) : w.Running ∧ w.pc = s.pc + 2 ∧ LiveStackKept s w := by
  have husp : u.sp = s.sp + 1 := hbody.sp.trans hcall.sp
  have hpop := pops_of_runs_ret hret (by omega) h
  obtain ⟨x, htop, hpc⟩ := hpop.pc
  have hwsp : w.sp = s.sp := Nat.succ.inj (hpop.sp.trans husp)
  have htop' : u.slot? s.sp = some s.pc := (hbody.live s.sp (by have := hcall.sp; omega)).trans hcall.top
  rw [husp, Nat.add_sub_cancel, htop'] at htop
  cases htop
  refine ⟨hpop.running, hpc, hwsp, fun j hj => ?_⟩
  calc w.slot? j = u.slot? j := hpop.slots j
    _ = t.slot? j := hbody.live j (by have := hcall.sp; omega)
    _ = s.slot? j := hcall.below j (by omega)

/-- A balanced run keeps SP and the entries in use, by induction on how it is made of cycles and calls. -/
theorem Balanced.liveStackKept {s u : State} (h : Balanced s u) : LiveStackKept s u := by
  induction h with
  | done s => exact .refl s
  | @plain s t u i hs hcall hret hstep _ ih =>
    refine LiveStackKept.trans (.of_stack ?_) ih
    rcases step_stack_cases hstep with hstack | ⟨⟨addr, hs'⟩, -⟩ | ⟨hs', -⟩
    · exact hstack
    · cases hs.instr.symm.trans hs'.instr
      cases hcall
    · cases hs.instr.symm.trans hs'.instr
      cases hret
  | @nested s t u w x addr hs hstep ht _ hu hret _ ihBody ihRest =>
    obtain ⟨-, -, hkept⟩ := pops_of_pushes (pushes_of_running hs hstep ht) ihBody hu hret
    exact hkept.trans ihRest

end Sys2Proof.Machine

namespace Sys2Proof.Proofs

open Sys2Proof.Machine

/-- Settles O39: no word decodes to RET under `as_built`, so a step leaves the stack or pushes on it. -/
theorem asBuiltNeverReturns : Obligations.AsBuiltNeverReturns := by
  intro s t hmode ht
  have hne := State.instrAtPc_ne_ret hmode
  refine ⟨hne, ?_, ?_, fun addr hs => ⟨fun hroom => ?_, fun hfull => ?_⟩⟩
  · rcases step_stack_cases ht with hstack | ⟨-, hpush⟩ | ⟨hret, -⟩
    · exact Nat.le_of_eq (State.sp_congr hstack).symm
    · exact hpush.sp ▸ Nat.le_succ s.sp
    · exact absurd hret.instr hne
  · rcases step_outcomes ht with ⟨-, rfl⟩ | ⟨-, c, hc, rfl⟩ | ⟨u, hu, rfl⟩
    · exact id
    · rintro rfl
      cases hc with
      | ret _ hi _ => exact absurd hi hne
    · exact fun h => hu.cause ▸ h
  · have hpush := pushes_of_runs_call hs hroom ht
    exact ⟨hpush.sp, hpush.running⟩
  · exact (haltedWith_step_iff hs.running ht _).mpr (.call hs.fetchable ⟨addr, hs.instr⟩ hfull)

/-- Settles O40: memory is in the frame of a step, a halted block has the cause it raised, and the bounds follow what a
step does to pc and to the stack. -/
theorem stepKeepsInvariants : Obligations.StepKeepsInvariants :=
  ⟨fun _ _ hs h => hs.step h, fun _ _ hs h => ⟨hs.step_pc h, hs.step_stack h⟩⟩

/-- Settles O45: the balanced run hands the CALL's address to its RET; the limits are the two causes of the stack. -/
theorem callAndReturnLaw : Obligations.CallAndReturnLaw := by
  refine ⟨fun s t u w addr hs ht hrun hbal hu hw => ?_, fun s addr hs hfull => ?_, fun s hs hempty => ?_⟩
  · obtain ⟨hwrun, hpc, hkept⟩ := pops_of_pushes (pushes_of_running hs ht hrun) hbal.liveStackKept hu hw
    exact ⟨hwrun, hpc, hkept.sp, hkept.live⟩
  · exact ⟨_, step_of_raises hs.running (.call hs.fetchable ⟨addr, hs.instr⟩ hfull), s.haltedWith_halt _⟩
  · exact ⟨_, step_of_raises hs.running (.ret hs.fetchable hs.instr hempty), s.haltedWith_halt _⟩

end Sys2Proof.Proofs

end

/-! # Proofs of the other family, noninterference: hidden state (O46), registers read and written (O37), the trace
(O6) -/

section

namespace Sys2Proof.Machine

/-! ## One simulation for the three statements

Each of them compares two runs of the same instruction, from states that differ in something it does not look at. What
`exec` asks of such a relation is said once, in `Simulates`. -/

/-- Both operations answer a next state, and the two are related. -/
def BothNext (P : State → State → Prop) (o o' : Host.Outcome State Fault Refusal) : Prop :=
  ∃ t t', o = .next t ∧ o' = .next t' ∧ P t t'

theorem BothNext.mono {P Q : State → State → Prop} {o o' : Host.Outcome State Fault Refusal} (h : BothNext P o o')
    (hPQ : ∀ t t', P t t' → Q t t') : BothNext Q o o' := by
  obtain ⟨t, t', e, e', hP⟩ := h
  exact ⟨t, t', e, e', hPQ t t' hP⟩

/-- A relation between states, for each list of registers on which they agree, that the parts of an execute step
keep. -/
structure Simulates (R : List Reg → State → State → Prop) : Prop where
  getV : ∀ {A s s'}, R A s s' → ∀ {r}, r ∈ A → s'.getV r = s.getV r
  mono : ∀ {A B s s'}, R A s s' → B ⊆ A → R B s s'
  pc : ∀ {A s s'}, R A s s' → s'.pc = s.pc
  setV : ∀ {A s s'}, R A s s' → ∀ x b, R (x :: A) (s.setV x b) (s'.setV x b)
  setPc : ∀ {A s s'}, R A s s' → ∀ p, R A (s.setPc p) (s'.setPc p)
  clearDisplay : ∀ {A s s'}, R A s s' → R A s.clearDisplay s'.clearDisplay
  ret : ∀ {A s s'}, R A s s' → BothNext (R A) (execRet s) (execRet s')
  call : ∀ {A s s'}, R A s s' → ∀ addr, BothNext (R A) (execCall addr s) (execCall addr s')

namespace Simulates

variable {R : List Reg → State → State → Prop} {A : List Reg} {s s' : State}

theorem advance (hR : Simulates R) (h : R A s s') : R A s.advance s'.advance := by
  rw [State.advance, State.advance, hR.pc h]
  exact hR.setPc h _

theorem skipIf (hR : Simulates R) (h : R A s s') {c c' : Bool} (hc : c' = c) :
    BothNext (R A) (skipIf c s) (skipIf c' s') := by
  subst hc
  cases c' with
  | true => exact ⟨_, _, rfl, rfl, hR.advance h⟩
  | false => exact ⟨_, _, rfl, rfl, h⟩

theorem setV_eq (hR : Simulates R) (h : R A s s') (x : Reg) {b b' : Byte} (hb : b' = b) :
    R (x :: A) (s.setV x b) (s'.setV x b') :=
  hb ▸ hR.setV h x b

/-- What `f` computes from V[x] and V[y] is the same in any two related states that agree on the registers of `A`. -/
def Agrees {α : Type} (R : List Reg → State → State → Prop) (A : List Reg) (f : Byte → Byte → α) (x y : Reg) : Prop :=
  ∀ B s s', A ⊆ B → R B s s' → f (s'.getV x) (s'.getV y) = f (s.getV x) (s.getV y)

/-- An operation on two registers that agree. -/
theorem agrees_both {α : Type} (hR : Simulates R) (f : Byte → Byte → α) (x y : Reg) : Agrees R [x, y] f x y := by
  intro B s s' hB h
  rw [hR.getV h (hB (by simp)), hR.getV h (hB (by simp))]

/-- An operation that looks only at its second operand, and that one agrees. -/
theorem agrees_second (hR : Simulates R) {f : Byte → Byte → Byte} (hf : ∀ a a' b, f a b = f a' b) (x y : Reg) :
    Agrees R [y] f x y := by
  intro B s s' hB h
  rw [hR.getV h (hB (List.mem_singleton_self y)), hf]

theorem combine (hR : Simulates R) (h : R A s s') {f : Byte → Byte → Byte} {x y : Reg} (hf : Agrees R A f x y) :
    BothNext (R [x]) (combine f x y s) (combine f x y s') :=
  ⟨_, _, rfl, rfl, hR.mono (hR.setV_eq h x (hf A _ _ (List.Subset.refl A) h)) (by simp)⟩

/-- The result is computed after the flag write (R130), from states that agree on VF too. -/
theorem flagThenResult (hR : Simulates R) (h : R A s s') {flag result : Byte → Byte → Byte} {x y : Reg}
    (hflag : Agrees R A flag x y) (hresult : Agrees R A result x y) :
    BothNext (R [x, vf]) (flagThenResult flag result x y s) (flagThenResult flag result x y s') := by
  have hvf := hR.setV_eq h vf (hflag A _ _ (List.Subset.refl A) h)
  exact ⟨_, _, rfl, rfl, hR.mono (hR.setV_eq hvf x (hresult _ _ _ (List.subset_cons_self vf A) hvf)) (by simp)⟩

/-- From states that agree on the registers an instruction reads, its execute step leads to states that agree on those
it writes, for every relation of this kind. -/
theorem exec (hR : Simulates R) (i : Instr) (h : R i.reads s s') : BothNext (R i.writes) (exec i s) (exec i s') := by
  have noWrites {B : List Reg} (t t' : State) (ht : R B t t') : R [] t t' := hR.mono ht (List.nil_subset B)
  cases i with
  | cls => exact ⟨_, _, rfl, rfl, hR.clearDisplay h⟩
  | clsAsBuilt addr => exact ⟨_, _, rfl, rfl, hR.clearDisplay h⟩
  | jp addr => exact ⟨_, _, rfl, rfl, hR.setPc h _⟩
  | ret => exact hR.ret h
  | call addr => exact hR.call h addr
  | seByte x kk =>
    have hcond := congrArg (· == kk) (hR.getV h (List.mem_singleton_self x))
    exact (hR.skipIf h hcond).mono noWrites
  | sneByte x kk =>
    have hcond := congrArg (· != kk) (hR.getV h (List.mem_singleton_self x))
    exact (hR.skipIf h hcond).mono noWrites
  | seReg x y z =>
    have hcond := hR.agrees_both (· == ·) x y _ _ _ (List.Subset.refl _) h
    exact (hR.skipIf h hcond).mono noWrites
  | sneReg x y z =>
    have hcond := hR.agrees_both (· != ·) x y _ _ _ (List.Subset.refl _) h
    exact (hR.skipIf h hcond).mono noWrites
  | ldByte x kk => exact ⟨_, _, rfl, rfl, hR.setV h x kk⟩
  | addByte x kk =>
    have hsum := congrArg (· + kk) (hR.getV h (List.mem_singleton_self x))
    exact ⟨_, _, rfl, rfl, hR.mono (hR.setV_eq h x hsum) (by simp [Instr.writes, Instr.dest, Instr.writesFlag])⟩
  | ldReg x y =>
    rw [exec_ldReg, exec_ldReg]
    exact hR.combine h (hR.agrees_second (fun _ _ _ => rfl) x y)
  | orReg x y => exact hR.combine h (hR.agrees_both _ x y)
  | andReg x y => exact hR.combine h (hR.agrees_both _ x y)
  | xorReg x y => exact hR.combine h (hR.agrees_both _ x y)
  | addReg x y =>
    have hcarry := hR.agrees_both carryFlag x y _ _ _ (List.Subset.refl _) h
    have hsum := hR.agrees_both (· + ·) x y _ _ _ (List.Subset.refl _) h
    exact ⟨_, _, rfl, rfl, hR.mono (hR.setV_eq (hR.setV_eq h vf hcarry) x hsum)
      (by simp [Instr.writes, Instr.dest, Instr.writesFlag])⟩
  | subReg x y =>
    rw [exec_subReg, exec_subReg]
    exact hR.flagThenResult h (hR.agrees_both _ x y) (hR.agrees_both _ x y)
  | subnReg x y =>
    rw [exec_subnReg, exec_subnReg]
    exact hR.flagThenResult h (hR.agrees_both _ x y) (hR.agrees_both _ x y)
  | shrReg x y =>
    rw [exec_shrReg, exec_shrReg]
    exact hR.flagThenResult h (hR.agrees_second (fun _ _ _ => rfl) x y) (hR.agrees_second (fun _ _ _ => rfl) x y)
  | shlReg x y =>
    rw [exec_shlReg, exec_shlReg]
    exact hR.flagThenResult h (hR.agrees_second (fun _ _ _ => rfl) x y) (hR.agrees_second (fun _ _ _ => rfl) x y)
  | _ => exact ⟨_, _, rfl, rfl, h⟩

end Simulates

/-- A relation that whole steps keep: it hides nothing that the cycle around the execute step looks at. -/
structure StepSimulates (S : State → State → Prop) : Prop where
  parts : Simulates fun _ => S
  halted : ∀ {s s'}, S s s' → s'.halted = s.halted
  instr : ∀ {s s'}, S s s' → s'.instrAtPc = s.instrAtPc
  halt : ∀ {s s'}, S s s' → ∀ c, S (s.halt c) (s'.halt c)

/-- A step keeps every relation of this kind, by the pc check, the fetch and the execute step. -/
theorem StepSimulates.step {S : State → State → Prop} (hS : StepSimulates S) {s s' : State} (h : S s s') :
    BothNext S (step s) (step s') := by
  have hpc : s'.pc = s.pc := hS.parts.pc (A := []) h
  by_cases hh : s.halted = true
  · exact ⟨s, s', step_of_halted hh, step_of_halted ((hS.halted h).trans hh), h⟩
  have hr : s.Running := Bool.eq_false_iff.mpr hh
  have hr' : s'.Running := (hS.halted h).trans hr
  by_cases hout : 0x1000 ≤ s.pc.toNat
  · exact ⟨_, _, step_of_raises hr (.pcCheck hout), step_of_raises hr' (.pcCheck (hpc ▸ hout)), hS.halt h _⟩
  by_cases hfff : s.pc.toNat = 0xFFF
  · exact ⟨_, _, step_of_raises hr (.fetch hfff), step_of_raises hr' (.fetch (hpc ▸ hfff)), hS.halt h _⟩
  have hf : s.Fetchable := by simp only [State.Fetchable]; omega
  have hf' : s'.Fetchable := by rw [State.Fetchable, hpc]; exact hf
  obtain ⟨u, u', hu, hu', hS'⟩ := hS.parts.exec s.instrAtPc h
  rw [step_of_fetchable hr hf, step_of_fetchable hr' hf', hS.instr h, hu, hu', finishCycle_next, finishCycle_next,
    hS.halted hS']
  refine ⟨_, _, rfl, rfl, ?_⟩
  by_cases hhalt : u.halted = true
  · rw [if_pos hhalt, if_pos hhalt]
    exact hS'
  · rw [if_neg hhalt, if_neg hhalt]
    exact hS.parts.advance (A := []) hS'

/-! ## Two states with the same stack -/

theorem execRet_bothNext {P : State → State → Prop} {s s' : State} (hstack : s'.stack = s.stack)
    (hhalt : ∀ c, P (s.halt c) (s'.halt c))
    (hpop : ∀ k x, P ({ s with stack := k }.setPc x) ({ s' with stack := k }.setPc x)) :
    BothNext P (execRet s) (execRet s') := by
  unfold execRet
  rw [hstack]
  cases s.stack.pop with
  | error c => exact ⟨_, _, rfl, rfl, hhalt c⟩
  | ok xk => exact ⟨_, _, rfl, rfl, hpop xk.2 xk.1⟩

theorem execCall_bothNext {P : State → State → Prop} {s s' : State} (hstack : s'.stack = s.stack) (hpc : s'.pc = s.pc)
    (hhalt : ∀ c, P (s.halt c) (s'.halt c))
    (hpush : ∀ k x, P ({ s with stack := k }.setPc x) ({ s' with stack := k }.setPc x)) (addr : Addr) :
    BothNext P (execCall addr s) (execCall addr s') := by
  unfold execCall
  rw [hstack, hpc]
  cases s.stack.push s.pc with
  | error c => exact ⟨_, _, rfl, rfl, hhalt c⟩
  | ok k => exact ⟨_, _, rfl, rfl, hpush k _⟩

/-! ## TRACE_ENABLE -/

/-- R45: setting TRACE_ENABLE is a relation that steps keep. -/
theorem stepSimulates_withTrace (b : Bool) : StepSimulates fun s s' => s' = s.withTrace b where
  parts :=
    { getV := by rintro _ s _ rfl r _; rfl
      mono := fun h _ => h
      pc := by rintro _ s _ rfl; rfl
      setV := by rintro _ s _ rfl x v; rfl
      setPc := by rintro _ s _ rfl p; rfl
      clearDisplay := by rintro _ s _ rfl; rfl
      ret := by rintro _ s _ rfl; exact execRet_bothNext rfl (fun _ => rfl) fun _ _ => rfl
      call := by rintro _ s _ rfl; exact execCall_bothNext rfl rfl (fun _ => rfl) fun _ _ => rfl }
  halted := by rintro s _ rfl; rfl
  instr := by rintro s _ rfl; rfl
  halt := by rintro s _ rfl c; rfl

/-! ## Registers an instruction does not read -/

/-- The states differ in registers only, and not in those of `A`. -/
def DifferOutside (A : List Reg) (s s' : State) : Prop :=
  s' = { s with v := s'.v } ∧ ∀ r ∈ A, s'.getV r = s.getV r

/-- Writing one byte to the same register makes two states agree on it. -/
theorem DifferOutside.setV {A : List Reg} {s s' : State} (h : DifferOutside A s s') (x : Reg) (b : Byte) :
    DifferOutside (x :: A) (s.setV x b) (s'.setV x b) := by
  refine ⟨congrArg (State.setV · x b) h.1 |>.trans rfl, fun r hr => ?_⟩
  rw [State.getV_setV, State.getV_setV]
  by_cases hrx : r = x
  · rw [if_pos hrx, if_pos hrx]
  · rw [if_neg hrx, if_neg hrx]
    exact h.2 r (List.mem_of_ne_of_mem hrx hr)

/-- An update that neither reads nor writes registers keeps the difference. -/
theorem DifferOutside.update {A : List Reg} {s s' : State} (h : DifferOutside A s s') (f : State → State)
    (hf : ∀ (t : State) v, f { t with v := v } = { f t with v := v }) : DifferOutside A (f s) (f s') := by
  have hv (t : State) : (f t).v = t.v := (congrArg State.v (hf t t.v)).trans rfl
  refine ⟨?_, fun r hr => ?_⟩
  · rw [hv]
    exact (congrArg f h.1).trans (hf s s'.v)
  · have hr' := h.2 r hr
    rw [State.getV, State.getV] at hr' ⊢
    rw [hv, hv]
    exact hr'

theorem simulates_differOutside : Simulates DifferOutside where
  getV h r hr := h.2 r hr
  mono h hB := ⟨h.1, fun r hr => h.2 r (hB hr)⟩
  pc h := (congrArg State.pc h.1).trans rfl
  setV h := h.setV
  setPc h p := h.update (·.setPc p) fun _ _ => rfl
  clearDisplay h := h.update (·.clearDisplay) fun _ _ => rfl
  ret h := execRet_bothNext ((congrArg State.stack h.1).trans rfl) (fun c => h.update (·.halt c) fun _ _ => rfl)
    fun k x => h.update (fun t => { t with stack := k }.setPc x) fun _ _ => rfl
  call h := execCall_bothNext ((congrArg State.stack h.1).trans rfl) ((congrArg State.pc h.1).trans rfl)
    (fun c => h.update (·.halt c) fun _ _ => rfl)
    fun k x => h.update (fun t => { t with stack := k }.setPc x) fun _ _ => rfl

/-! ## Hidden state -/

namespace Indistinct

variable {s s' : State}

theorem setV (h : Indistinct s s') (x : Reg) (b : Byte) : Indistinct (s.setV x b) (s'.setV x b) where
  v r := by rw [State.getV_setV, State.getV_setV, h.v]
  pc := h.pc
  sp := h.sp
  stackCap := h.stackCap
  live := h.live
  bytes := h.bytes
  halted := h.halted
  cause := h.cause
  params := h.params

theorem setPc (h : Indistinct s s') (p : Word) : Indistinct (s.setPc p) (s'.setPc p) where
  v := h.v
  pc := rfl
  sp := h.sp
  stackCap := h.stackCap
  live := h.live
  bytes := h.bytes
  halted := h.halted
  cause := h.cause
  params := h.params

theorem clearDisplay (h : Indistinct s s') : Indistinct s.clearDisplay s'.clearDisplay where
  v := h.v
  pc := h.pc
  sp := h.sp
  stackCap := h.stackCap
  live := h.live
  bytes := h.bytes
  halted := h.halted
  cause := h.cause
  params := h.params

theorem halt (h : Indistinct s s') (c : Cause) : Indistinct (s.halt c) (s'.halt c) where
  v := h.v
  pc := h.pc
  sp := h.sp
  stackCap := h.stackCap
  live := h.live
  bytes := h.bytes
  halted := rfl
  cause := rfl
  params := h.params

/-- Stacks that agree on SP and on the entries in use may replace those of the two states. -/
theorem withStack (h : Indistinct s s') {k k' : CallStack} (hcap : k.cap = s.stackCap) (hcap' : k'.cap = s'.stackCap)
    (hsp : k.sp.val = k'.sp.val) (hlive : ∀ j : Nat, j < k.sp.val → k.slots[j]? = k'.slots[j]?) :
    Indistinct { s with stack := k } { s' with stack := k' } where
  v := h.v
  pc := h.pc
  sp := hsp
  stackCap := hcap.trans (h.stackCap.trans hcap'.symm)
  live := hlive
  bytes := h.bytes
  halted := h.halted
  cause := h.cause
  params := h.params

/-- RET pops an entry in use, so both states pop the same one. -/
theorem ret (h : Indistinct s s') : BothNext Indistinct (execRet s) (execRet s') := by
  have hsp := h.sp
  rcases execRet_cases s with ⟨h0, e⟩ | ⟨hne, x, k, htop, hcap, hksp, hslots, e⟩ <;>
    rcases execRet_cases s' with ⟨h0', e'⟩ | ⟨hne', x', k', htop', hcap', hksp', hslots', e'⟩
  · exact ⟨_, _, e, e', h.halt _⟩
  · omega
  · omega
  · have hx : x = x' := by
      rw [h.live _ (by omega), hsp, htop'] at htop
      exact (Option.some.inj htop).symm
    subst hx
    refine ⟨_, _, e, e', (h.withStack hcap hcap' (by omega) fun j hj => ?_).setPc x⟩
    rw [hslots, hslots']
    exact h.live j (by omega)

/-- CALL pushes the same pc in both states, over whatever the slot held. -/
theorem call (h : Indistinct s s') (addr : Addr) : BothNext Indistinct (execCall addr s) (execCall addr s') := by
  have hsp := h.sp
  have hstackCap := h.stackCap
  rcases execCall_cases addr s with ⟨hfull, e⟩ | ⟨hroom, k, hcap, hksp, htop, hslots, e⟩ <;>
    rcases execCall_cases addr s' with ⟨hfull', e'⟩ | ⟨hroom', k', hcap', hksp', htop', hslots', e'⟩
  · exact ⟨_, _, e, e', h.halt _⟩
  · omega
  · omega
  · refine ⟨_, _, e, e', (h.withStack hcap hcap' (by omega) fun j hj => ?_).setPc _⟩
    by_cases hj' : j = s.sp
    · rw [hj', htop, hsp, htop', h.pc]
    · rw [hslots j hj', hslots' j (hsp ▸ hj')]
      exact h.live j (by omega)

theorem instrAtPc (h : Indistinct s s') : s'.instrAtPc = s.instrAtPc := by
  simp only [State.instrAtPc, State.wordAtPc, h.pc, h.bytes, h.params]

theorem stepSimulates : StepSimulates Indistinct where
  parts :=
    { getV := fun h r _ => (h.v r).symm
      mono := fun h _ => h
      pc := fun h => h.pc.symm
      setV := fun h => h.setV
      setPc := fun h => h.setPc
      clearDisplay := fun h => h.clearDisplay
      ret := fun h => h.ret
      call := fun h => h.call }
  halted h := h.halted.symm
  instr h := h.instrAtPc
  halt h := h.halt

end Indistinct

end Sys2Proof.Machine

namespace Sys2Proof.Proofs

open Sys2Proof.Machine

/-- Settles O46: indistinct states simulate each other, and the record of a step holds nothing in which they differ. -/
theorem hiddenStateIsUnobservable : Obligations.HiddenStateIsUnobservable := by
  intro s s' h
  obtain ⟨t, t', ht, ht', hnext⟩ := Indistinct.stepSimulates.step h
  refine ⟨t, t', ht, ht', hnext, ?_⟩
  rw [State.trace_of_step ht, State.trace_of_step ht']
  simp only [State.Running, h.params, h.halted, hnext.halted, h.pc, h.bytes, State.v_ext hnext.v]

/-- Settles O37: a register outside the write list is kept; states that differ outside the read list simulate each
other. -/
theorem registersReadAndWritten : Obligations.RegistersReadAndWritten := by
  refine ⟨fun i s t r h hr => exec_getV_of_not_mem_writes h hr, fun i s s' hs hreads => ?_⟩
  obtain ⟨t, t', ht, ht', hrest, hwrites⟩ := simulates_differOutside.exec i ⟨hs, hreads⟩
  exact ⟨t, t', ht, ht', hrest, hwrites⟩

/-- Settles O6: the record as the step's outcome determines it, and steps keep the setting of TRACE_ENABLE. -/
theorem traceOutput : Obligations.TraceOutput := by
  refine ⟨fun s t hr ht hh htrace => ?_, fun s t ht hoff => ?_, fun s t b ht => ?_, fun e t ht => ?_⟩
  · rw [State.trace_of_step ht, if_pos ⟨htrace, hr, hh⟩]
  · rw [State.trace_of_step ht, if_neg]
    rintro ⟨htrace, -, hrun⟩
    rcases hoff with hhalt | htraceOff
    · exact absurd hhalt (ne_true_of_eq_false hrun)
    · exact absurd htrace (ne_true_of_eq_false htraceOff)
  · obtain ⟨u, u', hu, hu', rfl⟩ := (stepSimulates_withTrace b).step (s := s) rfl
    cases hu.symm.trans ht
    exact hu'
  · rw [Session.apply, ht]

end Sys2Proof.Proofs

end

/-! # Proofs of the other family, memory: canonical lists (O42), the loader (O3), a placed word (O15) -/

section

namespace Sys2Proof.Machine

/-! ## The cells of a canonical memory -/

/-- In a list with rising addresses the lookup finds exactly the cells listed. -/
theorem Memory.find?_eq_some_iff {m : Memory} (h : m.Pairwise fun c d => c.1 < d.1) (a : Nat) (b : Byte) :
    m.find? a = some b ↔ (a, b) ∈ m := by
  induction m with
  | nil => simp
  | cons c m ih =>
    obtain ⟨k, v⟩ := c
    obtain ⟨hfirst, hrest⟩ := List.pairwise_cons.mp h
    rw [Memory.find?_cons, List.mem_cons, Prod.mk.injEq]
    by_cases hk : k = a
    · have hnot : (a, b) ∉ m := fun hmem => absurd (hfirst _ hmem) (by simp [hk])
      rw [if_pos hk, Option.some.injEq]
      simp [hk, hnot, eq_comm]
    · rw [if_neg hk, ih hrest]
      simp [Ne.symm hk]

/-- What a canonical memory lists is what it reads as, wherever that is not the reset contents (log 12). -/
theorem Memory.mem_iff_read {f : Font} {m : Memory} (h : m.wf f) (a : Nat) (b : Byte) :
    (a, b) ∈ m ↔ a < memSize ∧ m.read f a = b ∧ b ≠ resetByte f a := by
  rw [← Memory.find?_eq_some_iff h.1, Memory.read]
  constructor
  · intro hfind
    obtain ⟨ha, hb⟩ := h.2 _ ((Memory.find?_eq_some_iff h.1 a b).mp hfind)
    exact ⟨ha, by rw [hfind]; rfl, hb⟩
  · rintro ⟨-, hread, hb⟩
    cases hfind : m.find? a with
    | none =>
      rw [hfind] at hread
      exact absurd hread.symm hb
    | some b' =>
      rw [hfind] at hread
      exact congrArg some hread

/-- A list with rising addresses does not list its first cell again. -/
theorem Memory.mem_tail_iff {c : Host.Cell} {m : Memory} (h : ∀ d ∈ m, c.1 < d.1) (d : Host.Cell) :
    d ∈ m ↔ d ∈ c :: m ∧ d ≠ c := by
  constructor
  · intro hd
    refine ⟨List.mem_cons_of_mem c hd, fun e => ?_⟩
    exact absurd (h d hd) (e ▸ Nat.lt_irrefl c.1)
  · rintro ⟨hd, hne⟩
    exact (List.mem_cons.mp hd).resolve_left hne

/-- Lists with rising addresses and the same cells are equal: their first cells have the least address. -/
theorem Memory.eq_of_mem_iff {m m' : Memory} (h : m.Pairwise fun c d => c.1 < d.1)
    (h' : m'.Pairwise fun c d => c.1 < d.1) (hmem : ∀ c, c ∈ m ↔ c ∈ m') : m = m' := by
  induction m generalizing m' with
  | nil => exact (List.eq_nil_iff_forall_not_mem.mpr fun c hc => absurd ((hmem c).mpr hc) List.not_mem_nil).symm
  | cons c m ih =>
    cases m' with
    | nil => exact absurd ((hmem c).mp List.mem_cons_self) List.not_mem_nil
    | cons c' m' =>
      obtain ⟨hfirst, hrest⟩ := List.pairwise_cons.mp h
      obtain ⟨hfirst', hrest'⟩ := List.pairwise_cons.mp h'
      have hhead : c = c' := by
        rcases List.mem_cons.mp ((hmem c).mp List.mem_cons_self) with e | hc
        · exact e
        · rcases List.mem_cons.mp ((hmem c').mpr List.mem_cons_self) with e | hc'
          · exact e.symm
          · exact absurd (hfirst' c hc) (Nat.lt_asymm (hfirst c' hc'))
      subst hhead
      have htail (d : Host.Cell) : d ∈ m ↔ d ∈ m' := by
        rw [Memory.mem_tail_iff hfirst, Memory.mem_tail_iff hfirst', hmem d]
      rw [ih hrest hrest' htail]

/-! ## The loader -/

/-- R55: the size check comes before any write. -/
theorem State.loadImage_of_large {s : State} {image : List Byte} (h : 0xE00 < image.length) :
    s.loadImage image = s.halt .romTooLarge := if_pos h

theorem State.loadImage_of_fits {s : State} {image : List Byte} (h : image.length ≤ 0xE00) :
    s.loadImage image = s.writeBytes progBase image := if_neg (Nat.not_lt.mpr h)

/-! ## A word written at pc -/

/-- The two bytes of a 16-bit value, high byte first, make up its word. -/
theorem wordOfBytes_ofNat {w : Nat} (hw : w < 2 ^ 16) :
    wordOfBytes (BitVec.ofNat 8 (w / 256)) (BitVec.ofNat 8 w) = BitVec.ofNat 16 w := by
  apply BitVec.eq_of_toNat_eq
  rw [wordOfBytes_toNat, BitVec.toNat_ofNat, BitVec.toNat_ofNat, BitVec.toNat_ofNat]
  omega

/-- R15: the two bytes of a number, big-endian. -/
theorem bytesBE_two (x : Nat) : bytesBE x 2 = [BitVec.ofNat 8 (x / 256), BitVec.ofNat 8 x] := by
  have hlow : x / 256 ^ 0 = x := Nat.div_one x
  exact congrArg (fun n => [BitVec.ofNat 8 (x / 256), BitVec.ofNat 8 n]) hlow

/-- Placing a 16-bit value writes its two bytes at pc and pc+1. -/
theorem State.withFetchWord_eq (s : State) {w : Nat} (hw : w < 2 ^ 16) :
    s.withFetchWord 16 w = s.writeBytes s.pc.toNat [BitVec.ofNat 8 (w / 256), BitVec.ofNat 8 w] := by
  rw [State.withFetchWord, State.memWrite, Nat.mod_eq_of_lt hw, bytesBE_two]

/-- Two bytes written at a fetchable pc are the word at pc. -/
theorem State.wordAtPc_writeBytes {s : State} (hwf : s.memWf) (hf : s.Fetchable) (hi lo : Byte) :
    (s.writeBytes s.pc.toNat [hi, lo]).wordAtPc = wordOfBytes hi lo := by
  simp only [State.Fetchable] at hf
  have hpc : (s.writeBytes s.pc.toNat [hi, lo]).pc = s.pc := by rw [State.writeBytes_eq]
  have hread (k : Nat) (hk : k < 2) : (s.writeBytes s.pc.toNat [hi, lo]).readByte (s.pc.toNat + k) = [hi, lo][k] :=
    State.readByte_writeBytes_inside s.pc.toNat [hi, lo] hwf hk (by simp only [memSize]; omega)
  have hfirst : (s.writeBytes s.pc.toNat [hi, lo]).readByte s.pc.toNat = hi := hread 0 (by decide)
  have hsecond : (s.writeBytes s.pc.toNat [hi, lo]).readByte (s.pc.toNat + 1) = lo := hread 1 (by decide)
  rw [State.wordAtPc, hpc, hfirst, hsecond]

end Sys2Proof.Machine

namespace Sys2Proof.Proofs

open Sys2Proof.Machine

/-- Settles O42: a canonical memory lists what it reads as, so memories that read alike list the same cells. -/
theorem canonicalMemoryIsUnique : Obligations.CanonicalMemoryIsUnique := by
  intro f m m' h h' hread
  refine Memory.eq_of_mem_iff h.1 h'.1 fun ⟨a, b⟩ => ?_
  rw [Memory.mem_iff_read h, Memory.mem_iff_read h']
  exact and_congr_right fun ha => by rw [hread a ha]

/-- Settles O3, by the size check and the laws of writing bytes. -/
theorem loaderContract : Obligations.LoaderContract := by
  intro s image
  refine ⟨fun hlarge => ?_, fun hwf hfits => ?_⟩
  · rw [State.loadImage_of_large hlarge]
    exact s.haltedWith_halt .romTooLarge
  · rw [State.loadImage_of_fits hfits]
    refine ⟨fun k hk => ?_, fun a ha => s.readByte_writeBytes_outside progBase image ha, ?_,
      s.writeBytes_eq progBase image⟩
    · exact State.readByte_writeBytes_inside progBase image hwf hk (by simp only [memSize, progBase]; omega)
    · rw [State.memWf, State.writeBytes_params]
      exact State.memWf_writeBytes progBase image hwf

/-- Settles O15: placing a word is writing its two bytes at pc and pc+1. -/
theorem placedWordIsFetched : Obligations.PlacedWordIsFetched := by
  intro s w hwf hf hw
  rw [State.withFetchWord_eq s hw]
  refine ⟨?_, s.writeBytes_eq _ _, fun a ha ha' => s.readByte_writeBytes_outside _ _ ?_⟩
  · rw [State.instrAtPc, State.writeBytes_params, State.wordAtPc_writeBytes hwf hf, wordOfBytes_ofNat hw]
  · simp only [List.length_cons, List.length_nil]
    omega

end Sys2Proof.Proofs

end

/-! # Proofs of the other family, the interface and whole runs: reset (O1, O2), the timer tick (O5), the load window
(O4), the invariant of the transactions (O41), the halted state (O19), timers and display (O43), memory (O44), the empty image
(O47) -/

section

namespace Sys2Proof.Machine

/-! ## Reset -/

/-- R53: glyph g of the font stands at 5g to 5g+4. -/
theorem resetByte_glyph (f : Font) (g : Fin 16) (k : Fin 5) : resetByte f (5 * g.val + k.val) = f[g.val][k.val] := by
  have hg : (5 * g.val + k.val) / 5 = g.val := by omega
  have hk : (5 * g.val + k.val) % 5 = k.val := by omega
  rw [resetByte, dif_pos (by simp only [fontSize]; omega)]
  simp only [hg, hk]

/-- R52: memory above the font is zero. -/
theorem resetByte_of_ge (f : Font) {a : Nat} (h : 0x050 ≤ a) : resetByte f a = 0 := dif_neg (Nat.not_lt.mpr h)

/-- R38: the table of the reset values. -/
theorem State.isReset_resetWith (c : Config) : IsReset c (State.resetWith c) where
  v r := by simp [State.getV]
  i := rfl
  pc := rfl
  sp := rfl
  stackCap := rfl
  slots j hj := by
    rw [State.slot?, State.resetWith_stack, CallStack.empty, Vector.getElem?_replicate, if_pos hj]
  dt := rfl
  st := rfl
  disp := State.pixel_of_disp_clear rfl
  halted := rfl
  cause := rfl
  params := rfl
  font g k := resetByte_glyph c.params.font g k
  zeroed _ ha _ := resetByte_of_ge c.params.font ha

theorem State.inv_resetWith (c : Config) : (State.resetWith c).Inv where
  memWf := Memory.wf_nil c.params.font
  haltedIffCause := by simp
  causeRaised := by simp

theorem State.codeBounds_resetWith (c : Config) : (State.resetWith c).CodeBounds where
  pcBound := by simp
  stackBound _ _ hj := absurd hj (Nat.not_lt_zero _)

/-! ## The timer tick -/

/-- R26: one less, with a floor of zero. -/
theorem tickDown_toNat (b : Byte) : (tickDown b).toNat = b.toNat - 1 := by
  rw [tickDown]
  split <;> bv_omega

/-- R47: a tick touches the timers only, wired or not. -/
theorem State.timerTick_eq (s : State) : s.timerTick = { s with dt := s.timerTick.dt, st := s.timerTick.st } := by
  rw [State.timerTick]
  split <;> rfl

theorem State.timerTick_of_wired {s : State} (h : s.params.timerTickWired = true) :
    s.timerTick = { s with dt := tickDown s.dt, st := tickDown s.st } := if_pos h

theorem State.timerTick_of_unwired {s : State} (h : s.params.timerTickWired = false) : s.timerTick = s :=
  if_neg (ne_true_of_eq_false h)

/-! ## What a load can change -/

/-- A load halts the block or writes memory. -/
theorem State.loadImage_eq (s : State) (image : List Byte) :
    s.loadImage image = { s with
      mem := (s.loadImage image).mem, halted := (s.loadImage image).halted, cause := (s.loadImage image).cause } := by
  by_cases h : 0xE00 < image.length
  · rw [State.loadImage_of_large h]
    rfl
  · rw [State.loadImage_of_fits (Nat.not_lt.mp h), State.writeBytes_eq]

/-- The load of a running block meets the invariant: a load that is too large records its cause. -/
theorem State.Inv.loadImage {s : State} (hs : s.Inv) (image : List Byte) : (s.loadImage image).Inv := by
  by_cases h : 0xE00 < image.length
  · rw [State.loadImage_of_large h]
    exact ⟨hs.memWf, by simp, by simp⟩
  · obtain ⟨-, hload⟩ := Proofs.loaderContract s image
    obtain ⟨-, -, hwf, heq⟩ := hload hs.memWf (Nat.not_lt.mp h)
    refine ⟨hwf, ?_, ?_⟩ <;> rw [heq]
    · exact hs.haltedIffCause
    · exact hs.causeRaised

theorem State.Inv.timerTick {s : State} (hs : s.Inv) : s.timerTick.Inv := by
  rw [State.timerTick_eq]
  exact ⟨hs.memWf, hs.haltedIffCause, hs.causeRaised⟩

/-! ## Transactions -/

/-- Everything a transaction can do, when it is not refused. -/
theorem Session.apply_cases {e e' : Session} {x : Transaction} (h : e.apply x = .next e') :
    (x = .reset ∧ e' = { e with state := State.resetWith e.state.config, loadOpen := true }) ∨
    (∃ image, x = .load image ∧ e.loadOpen = true ∧
      e' = { e with state := e.state.loadImage image, loadOpen := false }) ∨
    (x = .step ∧ ∃ t, step e.state = .next t ∧
      e' = { state := t, loadOpen := false, records := e.records ++ e.state.trace.toList }) ∨
    (x = .timerTick ∧ e' = { e with state := e.state.timerTick }) := by
  cases x with
  | reset =>
    cases h
    exact .inl ⟨rfl, rfl⟩
  | load image =>
    cases hopen : e.loadOpen with
    | false =>
      rw [Session.apply, hopen] at h
      cases h
    | true =>
      rw [Session.apply, hopen] at h
      cases h
      exact .inr (.inl ⟨image, rfl, rfl, rfl⟩)
  | step =>
    obtain ⟨t, ht⟩ := step_total e.state
    rw [Session.apply, ht] at h
    cases h
    exact .inr (.inr (.inl ⟨rfl, t, ht, rfl⟩))
  | timerTick =>
    cases h
    exact .inr (.inr (.inr ⟨rfl, rfl⟩))

/-- A sequence of transactions that none refuses begins with one that is not refused. -/
theorem Session.applyAll_cons {e e' : Session} {x : Transaction} {xs : List Transaction}
    (h : Session.applyAll (x :: xs) e = .next e') : ∃ d, e.apply x = .next d ∧ Session.applyAll xs d = .next e' := by
  rw [Session.applyAll] at h
  cases hx : e.apply x with
  | next d =>
    rw [hx] at h
    exact ⟨d, rfl, h⟩
  | fault r =>
    rw [hx] at h
    cases h
  | refused r =>
    rw [hx] at h
    cases h

/-- What every transaction of a kind keeps, every sequence of them keeps. -/
theorem Session.applyAll_keeps {P : Session → Prop} {ok : Transaction → Prop}
    (hkeep : ∀ {x e e'}, ok x → P e → e.apply x = .next e' → P e') {xs : List Transaction} (hxs : ∀ x ∈ xs, ok x)
    {e e' : Session} (he : P e) (h : Session.applyAll xs e = .next e') : P e' := by
  induction xs generalizing e with
  | nil =>
    cases h
    exact he
  | cons x xs ih =>
    obtain ⟨d, hd, hrest⟩ := Session.applyAll_cons h
    obtain ⟨hx, hxs'⟩ := List.forall_mem_cons.mp hxs
    exact ih hxs' (hkeep hx he hd) hrest

theorem Session.Inv.apply {e e' : Session} {x : Transaction} (he : e.Inv) (h : e.apply x = .next e') : e'.Inv := by
  rcases Session.apply_cases h with ⟨-, rfl⟩ | ⟨image, -, -, rfl⟩ | ⟨-, t, ht, rfl⟩ | ⟨-, rfl⟩
  · exact ⟨State.inv_resetWith e.state.config, nofun⟩
  · exact ⟨he.state.loadImage image, fun _ => rfl⟩
  · exact ⟨he.state.step ht, fun _ => rfl⟩
  · refine ⟨he.state.timerTick, fun hh => he.haltedClosed ?_⟩
    rw [State.timerTick_eq] at hh
    exact hh

/-- A timer tick leaves the load window as it is (log 14). -/
theorem Session.loadOpen_of_timerTick {e e' : Session} (h : e.apply .timerTick = .next e') :
    e'.loadOpen = e.loadOpen := by
  cases h
  rfl

/-- R46: the window, once closed, stays closed until the next reset. -/
theorem Session.loadOpen_false_of_ne_reset {x : Transaction} {e e' : Session} (hx : x ≠ .reset)
    (he : e.loadOpen = false) (h : e.apply x = .next e') : e'.loadOpen = false := by
  rcases Session.apply_cases h with ⟨hreset, -⟩ | ⟨image, -, -, rfl⟩ | ⟨-, t, -, rfl⟩ | ⟨-, rfl⟩
  · exact absurd hreset hx
  · rfl
  · rfl
  · exact he

/-- R46: a step and a load close the window. -/
theorem Session.loadOpen_false_of_step_or_load {x : Transaction} {e e' : Session}
    (hx : x = .step ∨ ∃ image, x = .load image) (h : e.apply x = .next e') : e'.loadOpen = false := by
  rcases Session.apply_cases h with ⟨rfl, -⟩ | ⟨image, -, -, rfl⟩ | ⟨-, t, -, rfl⟩ | ⟨rfl, -⟩
  · rcases hx with hx | ⟨_, hx⟩ <;> cases hx
  · rfl
  · rfl
  · rcases hx with hx | ⟨_, hx⟩ <;> cases hx

/-- Once the load window is closed, memory and the parameters stay as they are up to the next reset (R65). -/
theorem Session.mem_params_of_closed {x : Transaction} {e e' : Session} (hx : x ≠ .reset) (he : e.loadOpen = false)
    (h : e.apply x = .next e') : e'.state.mem = e.state.mem ∧ e'.state.params = e.state.params := by
  rcases Session.apply_cases h with ⟨hreset, -⟩ | ⟨image, -, hopen, -⟩ | ⟨-, t, ht, rfl⟩ | ⟨-, rfl⟩
  · exact absurd hreset hx
  · exact absurd hopen (ne_true_of_eq_false he)
  · exact ⟨(step_frame ht).mem, (step_frame ht).params⟩
  · rw [State.timerTick_eq]
    exact ⟨rfl, rfl⟩

/-- R164: once the load window is closed, a halted block keeps halted and cause up to the next reset. -/
theorem Session.halted_cause_of_closed {x : Transaction} {e e' : Session} (hx : x ≠ .reset) (he : e.loadOpen = false)
    (hh : e.state.halted = true) (h : e.apply x = .next e') :
    e'.state.halted = true ∧ e'.state.cause = e.state.cause := by
  rcases Session.apply_cases h with ⟨hreset, -⟩ | ⟨image, -, hopen, -⟩ | ⟨-, t, ht, rfl⟩ | ⟨-, rfl⟩
  · exact absurd hreset hx
  · exact absurd hopen (ne_true_of_eq_false he)
  · cases (step_of_halted hh).symm.trans ht
    exact ⟨hh, rfl⟩
  · rw [State.timerTick_eq]
    exact ⟨hh, rfl⟩

/-- The timers are 0 and the display is clear. -/
structure State.Quiet (s : State) : Prop where
  dt : s.dt = 0
  st : s.st = 0
  disp : s.disp = Display.clear

theorem State.quiet_resetWith (c : Config) : (State.resetWith c).Quiet := ⟨rfl, rfl, rfl⟩

/-- R27, R33: no transaction sets a timer or a cell of the display. -/
theorem State.Quiet.apply {x : Transaction} {e e' : Session} (he : e.state.Quiet) (h : e.apply x = .next e') :
    e'.state.Quiet := by
  rcases Session.apply_cases h with ⟨-, rfl⟩ | ⟨image, -, -, rfl⟩ | ⟨-, t, ht, rfl⟩ | ⟨-, rfl⟩
  · exact quiet_resetWith e.state.config
  · rw [State.loadImage_eq]
    exact ⟨he.dt, he.st, he.disp⟩
  · have hframe := step_frame ht
    exact ⟨hframe.dt.trans he.dt, hframe.st.trans he.st, hframe.disp.elim (·.trans he.disp) id⟩
  · cases hwired : e.state.params.timerTickWired with
    | true =>
      rw [State.timerTick_of_wired hwired, he.dt, he.st]
      exact ⟨rfl, rfl, he.disp⟩
    | false =>
      rw [State.timerTick_of_unwired hwired]
      exact he

/-! ## Runs -/

/-- D10: a halted block stays as it is, however often it is stepped. -/
theorem runSteps_of_halted {s : State} (h : s.halted = true) (n : Nat) : runSteps n s = .next s := by
  induction n with
  | zero => rfl
  | succ n ih => rw [runSteps_succ n (step_of_halted h), ih]

/-- A run goes on from the state that its first part leads to. -/
theorem runSteps_add {k : Nat} {s t : State} (h : runSteps k s = .next t) (n : Nat) :
    runSteps (k + n) s = runSteps n t := by
  induction k generalizing s with
  | zero =>
    cases h
    rw [Nat.zero_add]
  | succ k ih =>
    obtain ⟨u, hu⟩ := step_total s
    rw [runSteps_succ k hu] at h
    rw [Nat.add_right_comm, runSteps_succ (k + n) hu, ih h]

/-! ## The empty image -/

/-- R185: the zero word changes nothing under either ZERO_DISPATCH, when the display is clear. -/
theorem exec_decode_zero (m : ZeroDispatch) {s : State} (hdisp : s.disp = Display.clear) :
    exec (decode m 0) s = .next s := by
  cases m with
  | compare => exact exec_sys 0 s
  | asBuilt =>
    have hclear : s.clearDisplay = s := by
      rw [State.clearDisplay, ← hdisp]
    exact (exec_clsAsBuilt 0 s).trans (congrArg _ hclear)

/-- The machine as reset leaves it, but for pc. -/
def emptyAt (c : Config) (n : Nat) : State := (State.resetWith c).setPc (BitVec.ofNat 16 n)

/-- Above the font the block finds zero words, and a step only advances. -/
theorem step_emptyAt (c : Config) {n : Nat} (hlow : 0x050 ≤ n) (hhigh : n + 1 < 0x1000) :
    step (emptyAt c n) = .next (emptyAt c (n + 2)) := by
  have hpc : (emptyAt c n).pc.toNat = n := by
    change (BitVec.ofNat 16 n).toNat = n
    rw [BitVec.toNat_ofNat]
    omega
  have hr : (emptyAt c n).Running := rfl
  have hf : (emptyAt c n).Fetchable := by rw [State.Fetchable, hpc]; exact hhigh
  have hzero (a : Nat) (ha : 0x050 ≤ a) : (emptyAt c n).readByte a = 0 := resetByte_of_ge c.params.font ha
  have hword : (emptyAt c n).wordAtPc = 0 := by
    rw [State.wordAtPc, hpc, hzero n hlow, hzero (n + 1) (Nat.le_succ_of_le hlow)]
    rfl
  have hadvance : (emptyAt c n).advance = emptyAt c (n + 2) :=
    congrArg (State.resetWith c).setPc (BitVec.ofNat_add n 2).symm
  rw [step_of_fetchable hr hf, State.instrAtPc, hword, exec_decode_zero _ rfl, finishCycle_next_of_running hr, hadvance]

/-- Every cycle inside memory advances by 2. -/
theorem runSteps_emptyAt (c : Config) (k : Nat) {n : Nat} (hlow : 0x050 ≤ n) (hhigh : n + 2 * k ≤ 0x1000) :
    runSteps k (emptyAt c n) = .next (emptyAt c (n + 2 * k)) := by
  induction k generalizing n with
  | zero => rfl
  | succ k ih =>
    rw [runSteps_succ k (step_emptyAt c hlow (by omega)), ih (by omega) (by omega)]
    congr 2
    omega

end Sys2Proof.Machine

namespace Sys2Proof.Proofs

open Sys2Proof.Machine

/-- Settles O1: the reset sequence is `resetWith` of the configuration the machine was built with. -/
theorem resetSequence : Obligations.ResetSequence := by
  refine ⟨State.isReset_resetWith, State.isReset_resetWith defaultConfig, fun e => ?_⟩
  exact ⟨State.resetWith e.state.config, rfl, State.isReset_resetWith e.state.config⟩

/-- Settles O2: reset leaves an empty memory list, an empty stack, pc at 0x200 and no cause. -/
theorem resetMeetsInvariants : Obligations.ResetMeetsInvariants := by
  intro c
  exact ⟨State.inv_resetWith c, State.codeBounds_resetWith c, State.inv_resetWith c, nofun⟩

/-- Settles O5, by whether the tick is wired. -/
theorem timerTickCountsDown : Obligations.TimerTickCountsDown := by
  refine ⟨fun s => ⟨fun hwired => ⟨?_, ?_, s.timerTick_eq⟩, State.timerTick_of_unwired⟩, fun e => rfl⟩
  · rw [State.timerTick_of_wired hwired]
    exact tickDown_toNat s.dt
  · rw [State.timerTick_of_wired hwired]
    exact tickDown_toNat s.st

/-- Settles O4: reset opens the window, ticks leave it, a step and a load close it. -/
theorem loadAcceptedOnce : Obligations.LoadAcceptedOnce := by
  refine ⟨fun e e₁ e₂ xs image hreset hxs h => ?_, fun e e₁ e₂ x xs image hx h₁ hxs h => ?_, fun s => rfl⟩
  · have hopen : e₂.loadOpen = true := by
      refine Session.applyAll_keeps (P := fun d => d.loadOpen = true) (fun hx hd h => ?_) hxs ?_ h
      · subst hx
        exact (Session.loadOpen_of_timerTick h).trans hd
      · cases hreset
        rfl
    refine ⟨{ e₂ with state := e₂.state.loadImage image, loadOpen := false }, ?_, rfl, rfl⟩
    rw [Session.apply, hopen]
    rfl
  · have hclosed : e₂.loadOpen = false :=
      Session.applyAll_keeps (P := fun d => d.loadOpen = false) Session.loadOpen_false_of_ne_reset hxs
        (Session.loadOpen_false_of_step_or_load hx h₁) h
    rw [Session.apply, hclosed]
    rfl

/-- Settles O41, by the transaction. -/
theorem transactionsKeepInvariant : Obligations.TransactionsKeepInvariant :=
  fun _ _ _ he h => he.apply h

/-- Settles O19: a halted block is fixed under steps and, its window being closed, keeps halted and cause. -/
theorem haltIsPermanentUntilReset : Obligations.HaltIsPermanentUntilReset := by
  refine ⟨fun s h n => runSteps_of_halted h n, fun e e' xs he hh hxs h => ?_, fun e => ⟨_, rfl, rfl, rfl⟩⟩
  obtain ⟨-, hhalted, hcause⟩ := Session.applyAll_keeps
    (P := fun d => d.loadOpen = false ∧ d.state.halted = true ∧ d.state.cause = e.state.cause)
    (fun hx ⟨hclosed, hhalted, hcause⟩ happly =>
      have hkept := Session.halted_cause_of_closed hx hclosed hhalted happly
      ⟨Session.loadOpen_false_of_ne_reset hx hclosed happly, hkept.1, hkept.2.trans hcause⟩)
    hxs ⟨he.haltedClosed hh, hh, rfl⟩ h
  exact ⟨hhalted, hcause⟩

/-- Settles O43: a fresh block is quiet and every transaction keeps it so. -/
theorem timersAndDisplayStayZero : Obligations.TimersAndDisplayStayZero := by
  intro c xs e h
  have hquiet : e.state.Quiet := Session.applyAll_keeps (P := fun d => d.state.Quiet) (ok := fun _ => True)
    (fun _ he happly => he.apply happly) (fun _ _ => trivial) (State.quiet_resetWith c) h
  exact ⟨hquiet.dt, hquiet.st, State.pixel_of_disp_clear hquiet.disp⟩

/-- Settles O44: the load overlays the image on the reset contents and closes the window, after which memory is kept. -/
theorem memoryIsResetOverlaidWithImage : Obligations.MemoryIsResetOverlaidWithImage := by
  intro c image xs e hfits hxs h
  obtain ⟨d, hd, hrest⟩ := Session.applyAll_cons h
  cases hd
  obtain ⟨-, hmem, hparams⟩ := Session.applyAll_keeps
    (P := fun d => d.loadOpen = false ∧ d.state.mem = ((State.resetWith c).loadImage image).mem ∧
      d.state.params = ((State.resetWith c).loadImage image).params)
    (fun hx ⟨hclosed, hmem, hparams⟩ happly =>
      have hkept := Session.mem_params_of_closed hx hclosed happly
      ⟨Session.loadOpen_false_of_ne_reset hx hclosed happly, hkept.1.trans hmem, hkept.2.trans hparams⟩)
    hxs ⟨rfl, rfl, rfl⟩ hrest
  obtain ⟨-, hload⟩ := loaderContract (State.resetWith c) image
  obtain ⟨hinside, houtside, -, -⟩ := hload (State.inv_resetWith c).memWf hfits
  exact ⟨fun k hk => (State.readByte_congr hmem hparams _).trans (hinside k hk),
    fun a ha => (State.readByte_congr hmem hparams a).trans (houtside a ha)⟩

/-- Settles O47: zero words up to the end of memory, then the pc check halts the block for good. -/
theorem emptyImageRun : Obligations.EmptyImageRun := by
  intro c
  have hrun (k : Nat) (hk : k ≤ 0x700) : runSteps k (emptyAt c 0x200) = .next (emptyAt c (0x200 + 2 * k)) :=
    runSteps_emptyAt c k (by decide) (by omega)
  refine ⟨hrun, fun n hn => ?_⟩
  obtain ⟨j, rfl⟩ : ∃ j, n = 0x700 + (j + 1) := ⟨n - 0x701, by omega⟩
  have hend : step (emptyAt c 0x1000) = .next ((emptyAt c 0x1000).halt .programCounterOutOfRange) :=
    step_of_raises rfl (.pcCheck (Nat.le_refl 0x1000))
  calc runSteps (0x700 + (j + 1)) (emptyAt c 0x200) = runSteps (j + 1) (emptyAt c 0x1000) :=
        runSteps_add (hrun 0x700 (Nat.le_refl _)) (j + 1)
    _ = runSteps j ((emptyAt c 0x1000).halt .programCounterOutOfRange) := runSteps_succ j hend
    _ = .next ((emptyAt c 0x1000).halt .programCounterOutOfRange) := runSteps_of_halted rfl j

end Sys2Proof.Proofs

end
